-- ==== Sys2Proof/Word.lean ====
section
/-! DEFINITION. The word types of the block: bytes and w-bit words, both unsigned (00_scope.md R8).
Sums of words are the sums of `BitVec`, which are reduced mod 2^w and keep no carry (R10); `&&&`, `|||`,
`^^^` and `~~~` are the operators of R13, the complement taken at the word's own width. -/

namespace Sys2Proof

/-- A byte of the message, of `BUF` or of `DIGEST`. -/
abbrev Byte := BitVec 8

/-- A w-bit word, an integer in [0, 2^w) (R8). -/
abbrev Word (w : Nat) := BitVec w

end Sys2Proof
end

