-- ==== Sys2Proof/Config.lean ====
section
/-! DEFINITION. The kinds of things the block is configured by: the word-size family, the variant, and the record
of parameters of one engine (40_constant_rom.md R89). Their values stand in Sys2Proof/Machine/Rom.lean. -/

namespace Sys2Proof

/-- The word-size family: SHA-224 and SHA-256 share the 32-bit engine, SHA-384 and SHA-512 the 64-bit engine
(00_scope.md R2). -/
inductive Fam where
  | fam32
  | fam64
deriving DecidableEq, Repr

/-- The selected variant, `VAR` (10_state.md R26). Exactly four exist (00_scope.md R5). -/
inductive Variant where
  | sha224
  | sha256
  | sha384
  | sha512
deriving DecidableEq, Repr

/-- The family record of R89 as one engine reads it: the round count, the round constants, and the rotate and
shift amounts. The other fields of R89 (w, B, LF) follow from the family. -/
structure Engine (w : Nat) where
  /-- R, rounds per block and words per schedule (00_scope.md R6). -/
  rounds : Nat
  /-- K_ROM of the family, `rounds` words (R80). -/
  k : List (Word w)
  /-- Σ0 amounts (rotr, rotr, rotr), 43_compression.md R140. -/
  bigSigma0 : Nat × Nat × Nat
  /-- Σ1 amounts (rotr, rotr, rotr), R140. -/
  bigSigma1 : Nat × Nat × Nat
  /-- σ0 amounts (rotr, rotr, shr), 42_message_schedule.md R120. -/
  smallSigma0 : Nat × Nat × Nat
  /-- σ1 amounts (rotr, rotr, shr), R120. -/
  smallSigma1 : Nat × Nat × Nat
deriving DecidableEq, Repr

end Sys2Proof
end

