-- ==== Sys2Proof/Syntax.lean ====
section
/-! DEFINITION. What the host presents on the command port, and the commands the block has: one constructor of
`Instr` per row of spec/opcode_table.json. -/

namespace Sys2Proof

/-- One transaction on the command port: a 32-bit command word and a 64-bit data operand (30_encoding.md R60). -/
structure Command where
  cmd : BitVec 32
  din : BitVec 64
deriving DecidableEq, Repr

/-- The commands of 30_encoding.md R63. -/
inductive Instr where
  /-- `INIT v`: start a session of variant v (45_commands.md R183). It ignores din. -/
  | init (v : Variant)
  /-- `UPDATE n, din`: append the n most significant bytes of din to the message (R185). n is the field
  cmd[11:8]; its legal values are 0..8 (30_encoding.md R62). -/
  | update (n : BitVec 4) (din : BitVec 64)
  /-- `FINALIZE`: pad, compress the last blocks, write the digest (R189). It ignores din. -/
  | finalize
deriving DecidableEq, Repr

end Sys2Proof
end

