-- ==== Sys2Proof/WellFormed.lean ====
section
/-! DEFINITION. Which terms of `Instr` are commands of the block. -/

namespace Sys2Proof

/-- An UPDATE carries at most 8 bytes; n in 9..15 is no command (30_encoding.md R62, R66). INIT takes each of
the four variants (R64) and FINALIZE has no operand, so both are always well formed. -/
abbrev Instr.WellFormed : Instr → Prop
  | .init _ => True
  | .update n _ => n.toNat ≤ 8
  | .finalize => True

end Sys2Proof
end

