-- ==== Sys2Proof/Decode.lean ====
section
/-! DEFINITION. Command encoding: the total decoder of 30_encoding.md R65, the opcode map of R63, and the encoder
written from the same field table (R61). -/

namespace Sys2Proof

/-- The variant code, cmd[5:4] and `VAR` (30_encoding.md R64). -/
def Variant.code : Variant → BitVec 2
  | .sha224 => 0
  | .sha256 => 1
  | .sha384 => 2
  | .sha512 => 3

/-- The variant a code selects; no code is reserved (R64). -/
def Variant.ofCode (c : BitVec 2) : Variant :=
  if c = 0 then .sha224 else if c = 1 then .sha256 else if c = 2 then .sha384 else .sha512

/-- Why a command word is illegal: the three lists of 30_encoding.md R66. The hardware reports all three as
the one code ILLEGAL. -/
inductive IllegalWord where
  /-- An op other than 0x1, 0x2 and 0x3. -/
  | opcode
  /-- A reserved bit is set. -/
  | reservedBit
  /-- UPDATE with n in 9..15. -/
  | byteCount
deriving DecidableEq, Repr

/-- What the decoder answers: a command, or ILLEGAL (30_encoding.md R65). -/
inductive Decoded where
  | instr (i : Instr)
  | illegal (why : IllegalWord)
deriving DecidableEq, Repr

/-- The field `op`, cmd[3:0] (30_encoding.md R61). -/
def opField (cmd : BitVec 32) : BitVec 4 := cmd.extractLsb' 0 4

/-- The field `v`, cmd[5:4] (R61, R62). -/
def vField (cmd : BitVec 32) : BitVec 2 := cmd.extractLsb' 4 2

/-- The field `n`, cmd[11:8] (R61, R62). -/
def nField (cmd : BitVec 32) : BitVec 4 := cmd.extractLsb' 8 4

/-- Decode (30_encoding.md R65): a total function of the command word, which reads neither din nor any state.
din is only handed on to UPDATE, the one command that reads it (R60). -/
def decode (c : Command) : Decoded :=
  if opField c.cmd = 1 then
    if c.cmd.extractLsb' 6 26 = 0 then .instr (.init (Variant.ofCode (vField c.cmd)))
    else .illegal .reservedBit
  else if opField c.cmd = 2 then
    if c.cmd.extractLsb' 12 20 = 0 ∧ c.cmd.extractLsb' 4 4 = 0 then
      if (nField c.cmd).toNat ≤ 8 then .instr (.update (nField c.cmd) c.din) else .illegal .byteCount
    else .illegal .reservedBit
  else if opField c.cmd = 3 then
    if c.cmd = 3 then .instr .finalize else .illegal .reservedBit
  else .illegal .opcode

/-- A row of the opcode map (30_encoding.md R63): a word matches when `(cmd & mask) = match`. -/
structure OpcodeRow where
  mnemonic : String
  matchBits : BitVec 32
  mask : BitVec 32
deriving DecidableEq, Repr

/-- The INIT row of R63. -/
def initRow : OpcodeRow := ⟨"INIT", 0x00000001, 0xFFFFFFCF⟩

/-- The UPDATE row of R63; it has the further condition n <= 8. -/
def updateRow : OpcodeRow := ⟨"UPDATE", 0x00000002, 0xFFFFF0FF⟩

/-- The FINALIZE row of R63. -/
def finalizeRow : OpcodeRow := ⟨"FINALIZE", 0x00000003, 0xFFFFFFFF⟩

/-- The opcode map of R63. -/
def opcodeRows : List OpcodeRow := [initRow, updateRow, finalizeRow]

/-- Whether a command word matches a row: `(cmd & mask) = match` (R63). -/
def OpcodeRow.Matches (r : OpcodeRow) (cmd : BitVec 32) : Bool := cmd &&& r.mask == r.matchBits

/-- The row of each command. -/
def Instr.row : Instr → OpcodeRow
  | .init _ => initRow
  | .update _ _ => updateRow
  | .finalize => finalizeRow

/-- The words of a command: the fields of 30_encoding.md R61 from bit 31 down, reserved bits 0, and din as the
assembler writes it, 0 where the command ignores it (R68). -/
def encode : Instr → Command
  | .init v => ⟨0#26 ++ v.code ++ 1#4, 0⟩
  | .update n din => ⟨0#20 ++ n ++ 0#4 ++ 2#4, din⟩
  | .finalize => ⟨0#28 ++ 3#4, 0⟩

/-- A transaction laid out as one number, the command word in bits 31..0 and din in bits 95..32
(log 5); bits at and above `nbits` are 0. -/
def commandOfTableWord (nbits w : Nat) : Command :=
  ⟨BitVec.ofNat 32 (w % 2 ^ nbits), BitVec.ofNat 64 (w % 2 ^ nbits / 2 ^ 32)⟩

/-- The command the decoder reads from a table word, none where the word is ILLEGAL. -/
def decodeTableWord (nbits w : Nat) : Option Instr :=
  match decode (commandOfTableWord nbits w) with
  | .instr i => some i
  | .illegal _ => none

end Sys2Proof
end

