-- ==== Sys2Proof/Machine/State.lean ====
section
/-! DEFINITION. The architectural state of the block (10_state.md), as plain data, and the state after reset (R33).
The block has no address space, no program counter and no register file (R29, R40), so none stands here. -/

namespace Sys2Proof.Machine

/-- `SESS`, the session state (10_state.md R25). -/
inductive Sess where
  /-- 0: no session exists; the state after reset. -/
  | idle
  /-- 1: INIT has run and no UPDATE has been accepted since. -/
  | empty
  /-- 2: at least one UPDATE has been accepted since INIT. -/
  | accum
  /-- 3: finalized; only INIT (or reset) leaves it. -/
  | final
deriving DecidableEq, Repr

/-- `LASTERR`, the result code of the most recent command (60_exceptions.md R211). Codes 5..7 are never produced
and have no name here (log 6). -/
inductive ErrCode where
  /-- 0: the command was accepted. -/
  | ok
  /-- 1: the command word decodes to ILLEGAL. -/
  | illegal
  /-- 2: UPDATE or FINALIZE with SESS = IDLE. -/
  | notInit
  /-- 3: UPDATE or FINALIZE with SESS = FINAL. -/
  | finalized
  /-- 4: UPDATE would make LEN exceed the family's length field. -/
  | length
deriving DecidableEq, Repr

/-- What the host can do to the block between steps (10_state.md R20, 70_reset_and_hazards.md R230, R234).
Reading a port changes nothing (R194), so it is no input. -/
inductive Input where
  /-- Present a command and wait for its completion (R60, R234). -/
  | command (c : Command)
  /-- Assert reset between commands; power-up and loss of power are resets too (R228, R230). -/
  | reset
  /-- Assert reset while the command `c` is still in progress: `c` has no effect (R230). -/
  | resetDuring (c : Command)
deriving DecidableEq, Repr

/-- Everything the spec gives the block between commands (10_state.md R21 to R28), and the model's own field
`inputs`. The working registers, the schedule and the padded blocks exist only inside one command (R22); the
ROMs are constants (R35). -/
structure State where
  /-- SESS (R25). -/
  sess : Sess
  /-- VAR (R26). -/
  var : Variant
  /-- H[0..7], 64 bits each (R21). -/
  h : Vector (BitVec 64) 8
  /-- BUF[0..127] (R23). -/
  buf : Vector Byte 128
  /-- BUFCNT (R23). -/
  bufcnt : BitVec 7
  /-- LEN, in bits (R24). -/
  len : BitVec 128
  /-- DIGEST[0..63] (R27). -/
  digest : Vector Byte 64
  /-- DLEN (R27). -/
  dlen : BitVec 7
  /-- DVALID (R27). -/
  dvalid : Bool
  /-- LASTERR (R28). -/
  lasterr : ErrCode
  /-- STICKY (R28). -/
  sticky : Bool
  /-- DESIGN CHOICE (log 1): what the host is still to give, the next input first. -/
  inputs : List Input
deriving DecidableEq, Repr

/-- The state after reset (10_state.md R33). H and BUF are unspecified there and hold zero here (DESIGN CHOICE,
logs 2 and 3); no input is waiting (DESIGN CHOICE, log 1). -/
def State.reset : State where
  sess := .idle
  var := .sha224
  h := Vector.replicate 8 0
  buf := Vector.replicate 128 0
  bufcnt := 0
  len := 0
  digest := Vector.replicate 64 0
  dlen := 0
  dvalid := false
  lasterr := .ok
  sticky := false
  inputs := []

/-- The block has no faults: no condition of it traps, and a command that fails is rejected, which is a next
state (60_exceptions.md R210). Raised by nothing; safe (log 8). -/
inductive Fault where
deriving DecidableEq, Repr

/-- Why the model gives a command no meaning. -/
inductive Refusal where
  /-- Raised by an arm of `exec` whose command has no meaning yet; no arm is left that does. Safe. -/
  | notModelled (mnemonic : String)
deriving DecidableEq, Repr

end Sys2Proof.Machine
end

