-- ==== Sys2Proof/Machine/Rom.lean ====
section
/-! DEFINITION. The round-constant and initial-vector ROM and the family and variant records
(40_constant_rom.md). Nothing writes them (R85): they are constants of the model. -/

namespace Sys2Proof.Machine

/-- The words of a ROM held four to a row, the word of least index in the most significant place. -/
def romWords (w : Nat) : List (BitVec (4 * w)) → List (Word w)
  | [] => []
  | row :: rows =>
    row.extractLsb' (3 * w) w :: row.extractLsb' (2 * w) w :: row.extractLsb' w w :: row.extractLsb' 0 w
      :: romWords w rows

/-- Eight words held in one row, word 0 in the most significant place. -/
def ivWords (w : Nat) (row : BitVec (8 * w)) : Vector (Word w) 8 :=
  Vector.ofFn fun i => row.extractLsb' ((7 - i.val) * w) w

/-- The rows of K32, words t = 0, 4, 8, ... first (R81). -/
def k32Rows : List (BitVec (4 * 32)) :=
  [0x428a2f98_71374491_b5c0fbcf_e9b5dba5,
   0x3956c25b_59f111f1_923f82a4_ab1c5ed5,
   0xd807aa98_12835b01_243185be_550c7dc3,
   0x72be5d74_80deb1fe_9bdc06a7_c19bf174,
   0xe49b69c1_efbe4786_0fc19dc6_240ca1cc,
   0x2de92c6f_4a7484aa_5cb0a9dc_76f988da,
   0x983e5152_a831c66d_b00327c8_bf597fc7,
   0xc6e00bf3_d5a79147_06ca6351_14292967,
   0x27b70a85_2e1b2138_4d2c6dfc_53380d13,
   0x650a7354_766a0abb_81c2c92e_92722c85,
   0xa2bfe8a1_a81a664b_c24b8b70_c76c51a3,
   0xd192e819_d6990624_f40e3585_106aa070,
   0x19a4c116_1e376c08_2748774c_34b0bcb5,
   0x391c0cb3_4ed8aa4a_5b9cca4f_682e6ff3,
   0x748f82ee_78a5636f_84c87814_8cc70208,
   0x90befffa_a4506ceb_bef9a3f7_c67178f2]

/-- K32 (R81), t = 0..63. -/
def k32 : List (Word 32) := romWords 32 k32Rows

/-- The rows of K64 (R82), words t = 0..39. -/
def k64RowsLow : List (BitVec (4 * 64)) :=
  [0x428a2f98d728ae22_7137449123ef65cd_b5c0fbcfec4d3b2f_e9b5dba58189dbbc,
   0x3956c25bf348b538_59f111f1b605d019_923f82a4af194f9b_ab1c5ed5da6d8118,
   0xd807aa98a3030242_12835b0145706fbe_243185be4ee4b28c_550c7dc3d5ffb4e2,
   0x72be5d74f27b896f_80deb1fe3b1696b1_9bdc06a725c71235_c19bf174cf692694,
   0xe49b69c19ef14ad2_efbe4786384f25e3_0fc19dc68b8cd5b5_240ca1cc77ac9c65,
   0x2de92c6f592b0275_4a7484aa6ea6e483_5cb0a9dcbd41fbd4_76f988da831153b5,
   0x983e5152ee66dfab_a831c66d2db43210_b00327c898fb213f_bf597fc7beef0ee4,
   0xc6e00bf33da88fc2_d5a79147930aa725_06ca6351e003826f_142929670a0e6e70,
   0x27b70a8546d22ffc_2e1b21385c26c926_4d2c6dfc5ac42aed_53380d139d95b3df,
   0x650a73548baf63de_766a0abb3c77b2a8_81c2c92e47edaee6_92722c851482353b]

/-- The rows of K64 (R82), words t = 40..79. -/
def k64RowsHigh : List (BitVec (4 * 64)) :=
  [0xa2bfe8a14cf10364_a81a664bbc423001_c24b8b70d0f89791_c76c51a30654be30,
   0xd192e819d6ef5218_d69906245565a910_f40e35855771202a_106aa07032bbd1b8,
   0x19a4c116b8d2d0c8_1e376c085141ab53_2748774cdf8eeb99_34b0bcb5e19b48a8,
   0x391c0cb3c5c95a63_4ed8aa4ae3418acb_5b9cca4f7763e373_682e6ff3d6b2b8a3,
   0x748f82ee5defb2fc_78a5636f43172f60_84c87814a1f0ab72_8cc702081a6439ec,
   0x90befffa23631e28_a4506cebde82bde9_bef9a3f7b2c67915_c67178f2e372532b,
   0xca273eceea26619c_d186b8c721c0c207_eada7dd6cde0eb1e_f57d4f7fee6ed178,
   0x06f067aa72176fba_0a637dc5a2c898a6_113f9804bef90dae_1b710b35131c471b,
   0x28db77f523047d84_32caab7b40c72493_3c9ebe0a15c9bebc_431d67c49c100d4c,
   0x4cc5d4becb3e42b6_597f299cfc657e2a_5fcb6fab3ad6faec_6c44198c4a475817]

/-- K64 (R82), t = 0..79. -/
def k64 : List (Word 64) := romWords 64 (k64RowsLow ++ k64RowsHigh)

/-- IV_ROM(0, ·), SHA-224 (R86). -/
def ivSha224 : Vector (Word 32) 8 :=
  ivWords 32 0xc1059ed8_367cd507_3070dd17_f70e5939_ffc00b31_68581511_64f98fa7_befa4fa4

/-- IV_ROM(1, ·), SHA-256 (R86). -/
def ivSha256 : Vector (Word 32) 8 :=
  ivWords 32 0x6a09e667_bb67ae85_3c6ef372_a54ff53a_510e527f_9b05688c_1f83d9ab_5be0cd19

/-- IV_ROM(2, ·), SHA-384 (R86). -/
def ivSha384 : Vector (Word 64) 8 :=
  ivWords 64
    (0xcbbb9d5dc1059ed8_629a292a367cd507_9159015a3070dd17_152fecd8f70e5939#256
      ++ 0x67332667ffc00b31_8eb44a8768581511_db0c2e0d64f98fa7_47b5481dbefa4fa4#256)

/-- IV_ROM(3, ·), SHA-512 (R86). -/
def ivSha512 : Vector (Word 64) 8 :=
  ivWords 64
    (0x6a09e667f3bcc908_bb67ae8584caa73b_3c6ef372fe94f82b_a54ff53a5f1d36f1#256
      ++ 0x510e527fade682d1_9b05688c2b3e6c1f_1f83d9abfb41bd6b_5be0cd19137e2179#256)

/-- IV_ROM(v, i) as INIT loads it, zero-extended to the 64-bit register H[i] (45_commands.md R183). -/
def ivRom (v : Variant) : Vector (BitVec 64) 8 :=
  match v with
  | .sha224 => ivSha224.map (BitVec.setWidth 64)
  | .sha256 => ivSha256.map (BitVec.setWidth 64)
  | .sha384 => ivSha384
  | .sha512 => ivSha512

/-- fam(v): 32 for codes 0 and 1, 64 for codes 2 and 3 (10_state.md R26, R90). -/
def famOf : Variant → Fam
  | .sha224 => .fam32
  | .sha256 => .fam32
  | .sha384 => .fam64
  | .sha512 => .fam64

/-- Nd(v), the digest words emitted (44_digest.md R171, R90). -/
def digestWords : Variant → Nat
  | .sha224 => 7
  | .sha256 => 8
  | .sha384 => 6
  | .sha512 => 8

/-- w, the word width in bits (00_scope.md R6, R89). -/
def wordBits : Fam → Nat
  | .fam32 => 32
  | .fam64 => 64

/-- B, the block size in bytes (R6, R89). -/
def blockBytes : Fam → Nat
  | .fam32 => 64
  | .fam64 => 128

/-- LF, the length-field size in bytes (R6, R89). -/
def lengthBytes : Fam → Nat
  | .fam32 => 8
  | .fam64 => 16

/-- The greatest bit length that fits the family's length field, 2^(8*LF) - 1 (60_exceptions.md R217). -/
def maxLen (fam : Fam) : Nat := 2 ^ (8 * lengthBytes fam) - 1

/-- The 32-bit engine's record (R89, R140, R120). -/
def engine32 : Engine 32 where
  rounds := 64
  k := k32
  bigSigma0 := (2, 13, 22)
  bigSigma1 := (6, 11, 25)
  smallSigma0 := (7, 18, 3)
  smallSigma1 := (17, 19, 10)

/-- The 64-bit engine's record (R89, R140, R120). -/
def engine64 : Engine 64 where
  rounds := 80
  k := k64
  bigSigma0 := (28, 34, 39)
  bigSigma1 := (14, 18, 41)
  smallSigma0 := (1, 8, 7)
  smallSigma1 := (19, 61, 6)

/-- K_ROM(fam, t) of an engine's family. The round rule forms no index outside 0..R-1, so the 0 past the table's
end is never read (R84, log 11). -/
def kRom {w : Nat} (e : Engine w) (t : Nat) : Word w := e.k.getD t 0

end Sys2Proof.Machine
end

