-- ==== Sys2Proof/Machine/Operands.lean ====
section
/-! DEFINITION. Operand forms: the byte lanes of din, the big-endian conversions between bytes and words, and the
rotation and shift of the datapath. -/

namespace Sys2Proof.Machine

/-- rotr_w(x, n) (00_scope.md R11). -/
def rotr {w : Nat} (x : Word w) (n : Nat) : Word w := (x >>> n) ||| (x <<< (w - n))

/-- shr_w(x, n), zeros entering at the top (00_scope.md R12). -/
def shr {w : Nat} (x : Word w) (n : Nat) : Word w := x >>> n

/-- Message byte j of an UPDATE: din[63-8j : 56-8j], byte 0 in the most significant lane (20_memory.md R43). -/
def dinLane (din : BitVec 64) (j : Nat) : Byte := din.extractLsb' (56 - 8 * j) 8

/-- The n message bytes an UPDATE carries, in message order; lanes at and above n are ignored (R43). -/
def dinBytes (n : BitVec 4) (din : BitVec 64) : List Byte := (List.range n.toNat).map (dinLane din)

/-- The integer whose big-endian bytes are `s`, the first byte the most significant (00_scope.md R14). -/
def natOfBytes (s : List Byte) : Nat := s.foldl (fun acc b => 256 * acc + b.toNat) 0

/-- BE_w(s) (00_scope.md R14). -/
def wordOfBytes (w : Nat) (s : List Byte) : Word w := BitVec.ofNat w (natOfBytes s)

/-- bytes_BE(x, k): k bytes, the most significant first (00_scope.md R15). -/
def bytesBE (x k : Nat) : List Byte := (List.range k).map fun j => BitVec.ofNat 8 (x >>> (8 * (k - 1 - j)))

end Sys2Proof.Machine
end

