-- ==== Sys2Proof/Machine/Schedule.lean ====
section
/-! DEFINITION. The message-schedule expander (42_message_schedule.md): a pure function of one block. -/

namespace Sys2Proof.Machine

/-- The shape of σ0 and σ1: two rotations and a shift (R120). -/
def smallSigma {w : Nat} (amounts : Nat × Nat × Nat) (x : Word w) : Word w :=
  rotr x amounts.1 ^^^ rotr x amounts.2.1 ^^^ shr x amounts.2.2

/-- σ0 of the engine's family (R121, R123). -/
def sigma0 {w : Nat} (e : Engine w) (x : Word w) : Word w := smallSigma e.smallSigma0 x

/-- σ1 of the engine's family (R122, R124). -/
def sigma1 {w : Nat} (e : Engine w) (x : Word w) : Word w := smallSigma e.smallSigma1 x

/-- W[0..15]: the block read as 16 big-endian words (R125). -/
def blockWords (w : Nat) (m : List Byte) : List (Word w) :=
  (List.range 16).map fun t => wordOfBytes w ((m.drop (t * (w / 8))).take (w / 8))

/-- W[t] from W[0..t-1], for t = `ws.length` >= 16 (R126). Every index lies in 0..t-1, so no default is read
(log 11). -/
def nextWord {w : Nat} (e : Engine w) (ws : List (Word w)) : Word w :=
  sigma1 e (ws.getD (ws.length - 2) 0) + ws.getD (ws.length - 7) 0
    + sigma0 e (ws.getD (ws.length - 15) 0) + ws.getD (ws.length - 16) 0

/-- Append `n` more schedule words, in increasing t (R126). -/
def extendSchedule {w : Nat} (e : Engine w) : Nat → List (Word w) → List (Word w)
  | 0, ws => ws
  | n + 1, ws => extendSchedule e n (ws ++ [nextWord e ws])

/-- expand(M, fam): W[0..R-1] of one block (R127). It depends on the block and the family alone (R128). -/
def expand {w : Nat} (e : Engine w) (m : List Byte) : List (Word w) :=
  extendSchedule e (e.rounds - 16) (blockWords w m)

end Sys2Proof.Machine
end

