-- ==== Sys2Proof/Machine/Compression.lean ====
section
/-! DEFINITION. The compression function (43_compression.md). -/

namespace Sys2Proof.Machine

/-- The working registers a..h of one compression (10_state.md R22). -/
structure Working (w : Nat) where
  a : Word w
  b : Word w
  c : Word w
  d : Word w
  e : Word w
  f : Word w
  g : Word w
  h : Word w
deriving DecidableEq, Repr

/-- The shape of Σ0 and Σ1: three rotations (R140). -/
def bigSigma {w : Nat} (amounts : Nat × Nat × Nat) (x : Word w) : Word w :=
  rotr x amounts.1 ^^^ rotr x amounts.2.1 ^^^ rotr x amounts.2.2

/-- Σ0 of the engine's family (R141, R143). -/
def bigSigma0 {w : Nat} (e : Engine w) (x : Word w) : Word w := bigSigma e.bigSigma0 x

/-- Σ1 of the engine's family (R142, R144). -/
def bigSigma1 {w : Nat} (e : Engine w) (x : Word w) : Word w := bigSigma e.bigSigma1 x

/-- Ch(e, f, g) (R145). -/
def ch {w : Nat} (x y z : Word w) : Word w := (x &&& y) ^^^ (~~~x &&& z)

/-- Maj(a, b, c) (R146). -/
def maj {w : Nat} (x y z : Word w) : Word w := (x &&& y) ^^^ (x &&& z) ^^^ (y &&& z)

/-- T1 of round t (R147). -/
def temp1 {w : Nat} (e : Engine w) (t : Nat) (s : Working w) (wt : Word w) : Word w :=
  s.h + bigSigma1 e s.e + ch s.e s.f s.g + kRom e t + wt

/-- T2 of a round (R147). -/
def temp2 {w : Nat} (e : Engine w) (s : Working w) : Word w := bigSigma0 e s.a + maj s.a s.b s.c

/-- round(fam, t, S, Wt): all eight registers at once, from the old values (R148, R149). -/
def round {w : Nat} (e : Engine w) (t : Nat) (s : Working w) (wt : Word w) : Working w where
  a := temp1 e t s wt + temp2 e s
  b := s.a
  c := s.b
  d := s.c
  e := s.d + temp1 e t s wt
  f := s.e
  g := s.f
  h := s.g

/-- The working registers at the start: a..h from H[0..7] (R150). -/
def Working.ofHash {w : Nat} (h : Vector (Word w) 8) : Working w where
  a := h[0]
  b := h[1]
  c := h[2]
  d := h[3]
  e := h[4]
  f := h[5]
  g := h[6]
  h := h[7]

/-- The registers a..h in the order of H[0..7] (R150). -/
def Working.toVector {w : Nat} (s : Working w) : Vector (Word w) 8 := #v[s.a, s.b, s.c, s.d, s.e, s.f, s.g, s.h]

/-- H[0..7] plus a..h, element by element, mod 2^w (R150). -/
def addWorking {w : Nat} (h : Vector (Word w) 8) (s : Working w) : Vector (Word w) 8 :=
  Vector.zipWith (· + ·) h s.toVector

/-- The first `n` rounds of a block with schedule `ws`, in increasing t; round t reads K_ROM(fam, t) and W[t]
(R151). -/
def runRounds {w : Nat} (e : Engine w) (ws : List (Word w)) : Nat → Working w → Working w
  | 0, s => s
  | n + 1, s => round e n (runRounds e ws n s) (ws.getD n 0)

/-- compress(H, M, fam) at the engine's width (R150). -/
def compress {w : Nat} (e : Engine w) (h : Vector (Word w) 8) (m : List Byte) : Vector (Word w) 8 :=
  addWorking h (runRounds e (expand e m) e.rounds (Working.ofHash h))

/-- `H <- compress(H, M, fam)` on the 64-bit registers: for fam 32 the low words go in and the results are
stored zero-extended (R152). -/
def compressH (fam : Fam) (h : Vector (BitVec 64) 8) (m : List Byte) : Vector (BitVec 64) 8 :=
  match fam with
  | .fam32 => (compress engine32 (h.map (BitVec.setWidth 32)) m).map (BitVec.setWidth 64)
  | .fam64 => compress engine64 h m

/-- Blocks compressed one after another, in list order, each from the H the one before left (R154). -/
def compressBlocks (fam : Fam) (h : Vector (BitVec 64) 8) (ms : List (List Byte)) : Vector (BitVec 64) 8 :=
  ms.foldl (compressH fam) h

end Sys2Proof.Machine
end

