-- ==== Sys2Proof/Machine/Digest.lean ====
section
/-! DEFINITION. The digest serializer (44_digest.md): a pure function of the final state and the variant. -/

namespace Sys2Proof.Machine

/-- The bytes of one state word, the family's w/8 bytes of it, the most significant first (R170, R44). -/
def wordBytes (fam : Fam) (x : BitVec 64) : List Byte := bytesBE x.toNat (wordBits fam / 8)

/-- serialize(H, v): the first Nd(v) state words, in state order (R170); the others are discarded (R171). -/
def serialize (v : Variant) (h : Vector (BitVec 64) 8) : List Byte :=
  (h.toList.take (digestWords v)).flatMap (wordBytes (famOf v))

/-- DIGEST as FINALIZE writes it: the digest, then 0x00 in every byte after it (45_commands.md R190). -/
def digestRegister (d : List Byte) : Vector Byte 64 := Vector.ofFn fun i => d.getD i.val 0x00

end Sys2Proof.Machine
end

