-- ==== Sys2Proof/Machine/Padding.lean ====
section
/-! DEFINITION. The padding and length encoder (41_padding.md): a pure function FINALIZE calls once. -/

namespace Sys2Proof.Machine

/-- k, the number of blocks the padding makes of an r-byte remainder: 1 if r + 1 + LF <= B, else 2 (R102). -/
def padBlockCount (fam : Fam) (r : Nat) : Nat := if r + 1 + lengthBytes fam ≤ blockBytes fam then 1 else 2

/-- The k*B bytes of the padded remainder: rem, 0x80, zeros, and L as LF bytes big-endian at the end (R103). -/
def padBytes (fam : Fam) (rem : List Byte) (len : Nat) : List Byte :=
  rem ++ [0x80]
    ++ List.replicate (padBlockCount fam rem.length * blockBytes fam - lengthBytes fam - (rem.length + 1)) 0
    ++ bytesBE len (lengthBytes fam)

/-- The `k` consecutive blocks of `b` bytes at the front of `bytes`. -/
def chunks (b : Nat) : Nat → List Byte → List (List Byte)
  | 0, _ => []
  | k + 1, bytes => bytes.take b :: chunks b k (bytes.drop b)

/-- pad(rem, L, fam): one or two blocks of B bytes (R100, R103). Its preconditions, r < B and L < 2^(8*LF), are
kept by the commands that build its operands (log 4). -/
def pad (fam : Fam) (rem : List Byte) (len : Nat) : List (List Byte) :=
  chunks (blockBytes fam) (padBlockCount fam rem.length) (padBytes fam rem len)

end Sys2Proof.Machine
end

