-- ==== Sys2Proof/Machine/Ops.lean ====
section
/-! DEFINITION. The named operations of the commands over the state: taking the host's next input, accepting and
rejecting a command, absorbing message bytes, writing the digest, and reset. The block has no traps; its one
failure operation is `reject` (60_exceptions.md R213), and nothing returns from it (R220). -/

namespace Sys2Proof.Machine

/-- The host's next input, and the state once it is taken; none where the host gives nothing (log 1). -/
def takeInput (s : State) : Option (Input × State) :=
  match s.inputs with
  | [] => none
  | i :: rest => some (i, { s with inputs := rest })

/-- An accepted command ends by writing `LASTERR <- OK` (45_commands.md R181). -/
def accept (s : State) : State := { s with lasterr := .ok }

/-- reject(code): record the code, set STICKY, change nothing else (60_exceptions.md R213). -/
def reject (code : ErrCode) (s : State) : State := { s with lasterr := code, sticky := true }

/-- What UPDATE and FINALIZE check of the session before anything else (60_exceptions.md R215, R216): none
where a session is open. -/
def sessionError : Sess → Option ErrCode
  | .idle => some .notInit
  | .empty => none
  | .accum => none
  | .final => some .finalized

/-- Whether the family's length field still holds the total once `n` more bytes are counted:
LEN + 8n <= 2^(8*LF) - 1, computed without wrapping (60_exceptions.md R217, 90_conflicts.md C2). -/
def lengthFits (n : Nat) (s : State) : Bool := s.len.toNat + 8 * n ≤ maxLen (famOf s.var)

/-- BUF[0..n-1]. -/
def bufPrefix (n : Nat) (s : State) : List Byte := s.buf.toList.take n

/-- The buffered remainder, BUF[0..BUFCNT-1] (10_state.md R23). -/
def remainder (s : State) : List Byte := bufPrefix s.bufcnt.toNat s

/-- `BUF[BUFCNT] <- b`. -/
def putByte (b : Byte) (s : State) : State :=
  { s with buf := s.buf.set s.bufcnt.toNat b (by have := s.bufcnt.isLt; omega) }

/-- `H <- compress(H, M, fam(VAR))` (43_compression.md R152). -/
def compressBlock (m : List Byte) (s : State) : State := { s with h := compressH (famOf s.var) s.h m }

/-- One turn of absorb's byte loop (45_commands.md R186): store the byte; when it completes the block, compress
BUF[0..B-1] at once and empty the buffer. The count that reaches B is never stored: for fam 64 it would not
fit the 7 bits of BUFCNT (log 4). -/
def absorbByte (s : State) (b : Byte) : State :=
  if s.bufcnt.toNat + 1 = blockBytes (famOf s.var) then
    let filled := putByte b s
    { compressBlock (bufPrefix (blockBytes (famOf s.var)) filled) filled with bufcnt := 0 }
  else { putByte b s with bufcnt := BitVec.ofNat 7 (s.bufcnt.toNat + 1) }

/-- absorb: the message bytes one at a time, in order (45_commands.md R186). -/
def absorb (bytes : List Byte) (s : State) : State := bytes.foldl absorbByte s

/-- `LEN <- LEN + 8*n` (45_commands.md R185). -/
def countBytes (n : Nat) (s : State) : State := { s with len := BitVec.ofNat 128 (s.len.toNat + 8 * n) }

/-- The state once the padded last block or blocks are compressed, in list order (45_commands.md R189). -/
def compressPadding (s : State) : State :=
  { s with h := compressBlocks (famOf s.var) s.h (pad (famOf s.var) (remainder s) s.len.toNat) }

/-- write_digest() (45_commands.md R190). -/
def writeDigest (s : State) : State :=
  { s with
    digest := digestRegister (serialize s.var s.h)
    dlen := BitVec.ofNat 7 (serialize s.var s.h).length
    dvalid := true }

/-- Reset as a step: every piece of state takes its reset value (70_reset_and_hazards.md R230, 10_state.md R33).
What the host is still to give is the host's, and stays. H and BUF, unspecified after reset, hold what
`State.reset` gives them (DESIGN CHOICE, logs 2 and 3). -/
def resetBlock (s : State) : State := { State.reset with inputs := s.inputs }

end Sys2Proof.Machine
end

