-- ==== Sys2Proof/Machine/Session.lean ====
section
/-! DEFINITION. The meanings of the three commands, and of an illegal command word (45_commands.md). Every command
is one atomic transition to a next state, a rejection included (10_state.md R36, 60_exceptions.md R210). -/

namespace Sys2Proof.Machine

/-- exec_init(v) (45_commands.md R183): accepted in every SESS. BUF and STICKY are not written. -/
def execInit (v : Variant) (s : State) : Host.Outcome State Fault Refusal :=
  .next (accept { s with
    var := v
    h := ivRom v
    bufcnt := 0
    len := 0
    digest := Vector.replicate 64 0x00
    dlen := 0
    dvalid := false
    sess := .empty })

/-- The check UPDATE fails, the first in the order of 60_exceptions.md R218, or none. The decoder gives no n
above 8; the term `update n din` with such an n is rejected as the word it stands for is (log 5). -/
def updateError (n : BitVec 4) (s : State) : Option ErrCode :=
  if 8 < n.toNat then some .illegal
  else match sessionError s.sess with
    | some code => some code
    | none => if lengthFits n.toNat s then none else some .length

/-- exec_update(n, din) (45_commands.md R185): every check comes before any byte is taken. -/
def execUpdate (n : BitVec 4) (din : BitVec 64) (s : State) : Host.Outcome State Fault Refusal :=
  match updateError n s with
  | some code => .next (reject code s)
  | none => .next (accept { countBytes n.toNat (absorb (dinBytes n din) s) with sess := .accum })

/-- exec_finalize() (45_commands.md R189). LEN is kept; BUF keeps its bytes (R191). -/
def execFinalize (s : State) : Host.Outcome State Fault Refusal :=
  match sessionError s.sess with
  | some code => .next (reject code s)
  | none => .next (accept { writeDigest (compressPadding s) with bufcnt := 0, sess := .final })

/-- An illegal command word (30_encoding.md R66, R67): rejected, before any state is read (60_exceptions.md
R214). -/
def execIllegal (s : State) : Host.Outcome State Fault Refusal := .next (reject .illegal s)

end Sys2Proof.Machine
end

