-- ==== Sys2Proof/Machine/Dispatch.lean ====
section
/-! DEFINITION. The dispatch of a decoded command to its meaning (45_commands.md R180). -/

namespace Sys2Proof.Machine

def exec (i : Instr) (s : State) : Host.Outcome State Fault Refusal :=
  match i with
  | .init v => Sys2Proof.Machine.execInit v s
  | .update n din => Sys2Proof.Machine.execUpdate n din s
  | .finalize => Sys2Proof.Machine.execFinalize s

end Sys2Proof.Machine
end

