-- ==== Sys2Proof/Machine/Step.lean ====
section
/-! DEFINITION. One step of the block: it takes the host's next input and does all of what that asks, atomically
(45_commands.md R180, 10_state.md R36). -/

namespace Sys2Proof.Machine

/-- A command step runs the decoded command, or rejects an illegal word (45_commands.md R180). Reset sets the reset
state, and so does a reset asserted while a command is in progress, which then has no effect
(70_reset_and_hazards.md R230). With no input the block does nothing (10_state.md R20, 45_commands.md R194). -/
def step (s : State) : Host.Outcome State Fault Refusal :=
  match takeInput s with
  | none => .next s
  | some (.command c, t) =>
    match decode c with
    | .instr i => exec i t
    | .illegal _ => execIllegal t
  | some (.reset, t) => .next (resetBlock t)
  | some (.resetDuring _, t) => .next (resetBlock t)

/-- `s` with a table word's command presented as the host's very next input. A program comes to run only by the
host presenting its commands (log 1); this stands for that. -/
def State.withFetchWord (s : State) (nbits w : Nat) : State :=
  { s with inputs := .command (commandOfTableWord nbits w) :: s.inputs }

end Sys2Proof.Machine
end

