-- ==== Sys2Proof/Machine/Assembler.lean ====
section
/-! DEFINITION. The pseudo-instructions of 30_encoding.md R69, each a list of commands. They are the assembler's:
the block sees only their expansions. -/

namespace Sys2Proof.Machine

/-- `UPDATE r, D` for r = at most 8 bytes, D = BE_64 of them with zero bytes after them (R69). -/
def updateOf (bytes : List Byte) : Instr :=
  .update (BitVec.ofNat 4 bytes.length) (wordOfBytes 64 (bytes ++ List.replicate (8 - bytes.length) 0))

/-- `k` commands `UPDATE 8` for the first 8k bytes, then one shorter UPDATE if bytes are left over. -/
def absorbCommands : Nat → List Byte → List Instr
  | 0, rest => if rest = [] then [] else [updateOf rest]
  | k + 1, bytes => updateOf (bytes.take 8) :: absorbCommands k (bytes.drop 8)

/-- `ABSORB s` (R69): floor(m/8) commands `UPDATE 8`, and one more for the m mod 8 bytes left. -/
def absorbProgram (bytes : List Byte) : List Instr := absorbCommands (bytes.length / 8) bytes

/-- `HASH variant, s` (R69): INIT, ABSORB, FINALIZE. -/
def hashProgram (v : Variant) (bytes : List Byte) : List Instr :=
  .init v :: (absorbProgram bytes ++ [.finalize])

/-- The host's inputs that present a list of commands, each as the assembler encodes it (R68). -/
def present (program : List Instr) : List Input := program.map fun i => .command (encode i)

end Sys2Proof.Machine
end

