-- ==== Sys2Proof/Machine/Flags.lean ====
section
/-! DEFINITION. The status fields and the output ports (10_state.md R31, R32). The block has no condition codes
(R30): STATUS is its only status, and no command reads it. Ports are functions of the state, so reading one
changes nothing (R47, R194). -/

namespace Sys2Proof.Machine

/-- SESS as STATUS[1:0] shows it (10_state.md R25). -/
def Sess.code : Sess → BitVec 2
  | .idle => 0
  | .empty => 1
  | .accum => 2
  | .final => 3

/-- LASTERR as STATUS[6:4] shows it (60_exceptions.md R211). -/
def ErrCode.code : ErrCode → BitVec 3
  | .ok => 0
  | .illegal => 1
  | .notInit => 2
  | .finalized => 3
  | .length => 4

/-- The STATUS port: its fields from bit 31 down, bits [31:23] reserved and 0 (10_state.md R31). -/
def status (s : State) : BitVec 32 :=
  0#9 ++ s.dlen ++ BitVec.ofBool s.dvalid ++ s.bufcnt ++ BitVec.ofBool s.sticky ++ s.lasterr.code ++ s.var.code
    ++ s.sess.code

/-- The LENOUT port: LEN (R32). -/
def lenout (s : State) : BitVec 128 := s.len

/-- The DOUT[i] port: DIGEST[i] (R32). -/
def dout (s : State) (i : Fin 64) : Byte := s.digest[i]

end Sys2Proof.Machine
end

