-- ==== Sys2Proof/Safety.lean ====
section
/-! DEFINITION. The terms claims are stated in: the invariants between commands (10_state.md R34), a clean run,
what it means that a session has accepted a message, the digest of a message, and which part of the state can
never be observed. -/

namespace Sys2Proof.Machine

/-- A session is open: UPDATE and FINALIZE are not rejected for the session's sake (45_commands.md R182). -/
abbrev State.Open (s : State) : Prop := s.sess = .empty ∨ s.sess = .accum

/-- No command since reset was rejected: STICKY is the bit a claim takes as its premise of a clean run
(92_eei_decisions.md D14). -/
abbrev State.Clean (s : State) : Prop := s.sticky = false

/-- Nd(v)*w/8, the digest bytes of a variant (00_scope.md R6, 40_constant_rom.md R90). -/
def digestBytes (v : Variant) : Nat := digestWords v * (wordBits (famOf v) / 8)

/-- The invariants between any two commands, clause by clause as 10_state.md R34 lists them. The second half of
its clause (c), that BUF holds the last bytes accepted, needs the message and stands in `Accepted`. -/
structure Inv (s : State) : Prop where
  /-- (a), first half. -/
  bufcnt_lt : s.sess ≠ .idle → s.bufcnt.toNat < blockBytes (famOf s.var)
  /-- (a), second half. -/
  bufcnt_zero : s.sess = .idle ∨ s.sess = .final → s.bufcnt = 0
  /-- (b), first half. -/
  len_whole_bytes : s.len.toNat % 8 = 0
  /-- (b), second half. -/
  len_fits : s.len.toNat ≤ maxLen (famOf s.var)
  /-- (c), first half. -/
  len_bufcnt : s.Open → s.len.toNat / 8 % blockBytes (famOf s.var) = s.bufcnt.toNat
  /-- (d). -/
  empty_zero : s.sess = .empty → s.len = 0 ∧ s.bufcnt = 0
  /-- (e), first sentence. -/
  dvalid_iff : s.dvalid = true ↔ s.sess = .final
  /-- (e), second sentence. -/
  dlen_valid : s.dvalid = true → s.dlen.toNat = digestBytes s.var
  /-- R27: the digest register is zero past DLEN. -/
  digest_tail : s.dvalid = true → ∀ i : Fin 64, s.dlen.toNat ≤ i.val → s.digest[i] = 0x00
  /-- (e), third sentence. -/
  no_digest : s.dvalid = false → s.dlen = 0 ∧ ∀ i : Fin 64, s.digest[i] = 0x00
  /-- (f). -/
  high_zero : famOf s.var = .fam32 → ∀ i : Fin 8, s.h[i].extractLsb' 32 32 = 0

/-- `s` has an open session of variant `v` that has accepted exactly the message `m`: LEN counts its bits (10_state.md
R24), BUF holds its last bytes (R34 (c)), and H is the initial vector with every full block of `m` compressed
into it, in order, each once (43_compression.md R154). -/
structure Accepted (v : Variant) (m : List Byte) (s : State) : Prop where
  isOpen : s.Open
  variant : s.var = v
  length : s.len.toNat = 8 * m.length
  count : s.bufcnt.toNat = m.length % blockBytes (famOf v)
  buffered : remainder s = m.drop (m.length / blockBytes (famOf v) * blockBytes (famOf v))
  hash : s.h = compressBlocks (famOf v) (ivRom v)
    (chunks (blockBytes (famOf v)) (m.length / blockBytes (famOf v)) m)

/-- The padded message: message, 0x80, the fewest zero bytes that make a whole number of blocks, and the bit
length in LF bytes (41_padding.md R106). -/
def paddedMessage (fam : Fam) (m : List Byte) : List Byte :=
  let zeros := (blockBytes fam - (m.length + 1 + lengthBytes fam) % blockBytes fam) % blockBytes fam
  m ++ [0x80] ++ List.replicate zeros 0 ++ bytesBE (8 * m.length) (lengthBytes fam)

/-- The SHA-2 digest of a message, without a session or a buffer: pad the whole message, cut it into blocks,
compress them in order from the initial vector, serialize (41_padding.md R106, 43_compression.md R154,
44_digest.md R170). -/
def sha2 (v : Variant) (m : List Byte) : List Byte :=
  let p := paddedMessage (famOf v) m
  serialize v (compressBlocks (famOf v) (ivRom v)
    (chunks (blockBytes (famOf v)) (p.length / blockBytes (famOf v)) p))

/-- Commands one after another, stopping at the first that does not answer a next state. -/
def runInstrs : List Instr → State → Host.Outcome State Fault Refusal
  | [], s => .next s
  | i :: is, s =>
    match exec i s with
    | .next t => runInstrs is t
    | .fault r => .fault r
    | .refused r => .refused r

/-- Two states the host can never tell apart: they may differ only in BUF at and above BUFCNT, and in H while no
session is open (10_state.md R21, R23, R33). -/
structure SameToHost (s t : State) : Prop where
  sess : s.sess = t.sess
  var : s.var = t.var
  bufcnt : s.bufcnt = t.bufcnt
  len : s.len = t.len
  digest : s.digest = t.digest
  dlen : s.dlen = t.dlen
  dvalid : s.dvalid = t.dvalid
  lasterr : s.lasterr = t.lasterr
  sticky : s.sticky = t.sticky
  inputs : s.inputs = t.inputs
  buffered : remainder s = remainder t
  hash : s.Open → s.h = t.h

end Sys2Proof.Machine
end

