-- ==== Sys2Proof/Certificates/Slice0/Obligations.lean ====
section
/-! DEFINITION. The statements for the provers, from the numbered rules of spec/. Where a statement speaks of a step,
the list `inputs` of what the host is still to give is the model's own (DESIGN CHOICE, log 1); it is said there. -/

open Sys2Proof Sys2Proof.Machine

-- ==== Encoding (30_encoding.md) ====

/-- R70: every row of its table, the assembled word and the decoded command; din is ignored where it says so. -/
def Obligations.WorkedEncodingsDecode : Prop :=
  (encode (.init .sha224)).cmd = 0x00000001 ∧ (encode (.init .sha256)).cmd = 0x00000011 ∧
  (encode (.init .sha384)).cmd = 0x00000021 ∧ (encode (.init .sha512)).cmd = 0x00000031 ∧
  (encode (.update 0 0)).cmd = 0x00000002 ∧
  encode (.update 3 0x6162630000000000) = ⟨0x00000302, 0x6162630000000000⟩ ∧
  encode (.update 8 0x6162636462636465) = ⟨0x00000802, 0x6162636462636465⟩ ∧
  (encode .finalize).cmd = 0x00000003 ∧
  ∀ din : BitVec 64,
    decode ⟨0x00000001, din⟩ = .instr (.init .sha224) ∧ decode ⟨0x00000011, din⟩ = .instr (.init .sha256) ∧
    decode ⟨0x00000021, din⟩ = .instr (.init .sha384) ∧ decode ⟨0x00000031, din⟩ = .instr (.init .sha512) ∧
    decode ⟨0x00000002, din⟩ = .instr (.update 0 din) ∧ decode ⟨0x00000302, din⟩ = .instr (.update 3 din) ∧
    decode ⟨0x00000802, din⟩ = .instr (.update 8 din) ∧ decode ⟨0x00000003, din⟩ = .instr .finalize ∧
    ∀ cmd : BitVec 32, cmd = 0x00000902 ∨ cmd = 0x00000000 ∨ cmd = 0x00000041 ∨ cmd = 0x00000013 →
      ∃ why, decode ⟨cmd, din⟩ = .illegal why

/-- R63: a command word decodes to a command exactly when it meets the condition of that command's row, and that is
exactly when it matches the row's match and mask (for UPDATE with n <= 8 as well); every other word is ILLEGAL. -/
def Obligations.DecodesExactlyTheOpcodeMap : Prop :=
  ∀ c : Command,
    ((∃ v, decode c = .instr (.init v)) ↔
      c.cmd.extractLsb' 0 4 = 1 ∧ c.cmd.extractLsb' 6 26 = 0) ∧
    ((∃ v, decode c = .instr (.init v)) ↔ c.cmd &&& 0xFFFFFFCF = 0x00000001) ∧
    ((∃ n din, decode c = .instr (.update n din)) ↔
      c.cmd.extractLsb' 0 4 = 2 ∧ c.cmd.extractLsb' 12 20 = 0 ∧ c.cmd.extractLsb' 4 4 = 0 ∧
        (c.cmd.extractLsb' 8 4).toNat ≤ 8) ∧
    ((∃ n din, decode c = .instr (.update n din)) ↔
      c.cmd &&& 0xFFFFF0FF = 0x00000002 ∧ (c.cmd.extractLsb' 8 4).toNat ≤ 8) ∧
    (decode c = .instr .finalize ↔ c.cmd.extractLsb' 0 4 = 3 ∧ c.cmd.extractLsb' 4 28 = 0) ∧
    (decode c = .instr .finalize ↔ c.cmd &&& 0xFFFFFFFF = 0x00000003) ∧
    ((∃ why, decode c = .illegal why) ↔ ∀ i, decode c ≠ .instr i)

/-- R61, R62: the operands of a decoded command are its fields: v is cmd[5:4] in the code of R64, n is cmd[11:8] and at
most 8, and the message bytes are the lanes din[63-8j : 56-8j] for j below n. -/
def Obligations.DecodedOperandsAreTheFields : Prop :=
  ∀ c : Command,
    (∀ v, decode c = .instr (.init v) →
      c.cmd.extractLsb' 4 2 =
        (match v with
          | .sha224 => 0
          | .sha256 => 1
          | .sha384 => 2
          | .sha512 => 3)) ∧
    (∀ n din, decode c = .instr (.update n din) →
      n = c.cmd.extractLsb' 8 4 ∧ n.toNat ≤ 8 ∧ din = c.din ∧ (dinBytes n din).length = n.toNat ∧
      ∀ j, j < n.toNat → (dinBytes n din)[j]? = some (c.din.extractLsb' (56 - 8 * j) 8))

/-- Decoding the words of a well-formed command gives that command back, every operand at every value. -/
def Obligations.DecodeInvertsEncode : Prop :=
  ∀ i : Instr, i.WellFormed → decode (encode i) = .instr i

/-- The other direction: a word that decodes is the one word of its command, and the command is well formed. -/
def Obligations.EachLegalWordHasOneMeaning : Prop :=
  ∀ (c : Command) (i : Instr), decode c = .instr i →
    i.WellFormed ∧ (encode i).cmd = c.cmd ∧ ∀ d : Command, decode d = .instr i → d.cmd = c.cmd

/-- R66, R67: exactly the words of R66's three lists decode to ILLEGAL, and presenting one changes LASTERR and STICKY
and nothing else (the taken input is the model's own, log 1). -/
def Obligations.IllegalWordsAreRejectedAlone : Prop :=
  ∀ (c : Command) (s : State) (rest : List Input),
    ((∃ why, decode c = .illegal why) ↔
      (c.cmd.extractLsb' 0 4 ≠ 1 ∧ c.cmd.extractLsb' 0 4 ≠ 2 ∧ c.cmd.extractLsb' 0 4 ≠ 3) ∨
      (c.cmd.extractLsb' 0 4 = 1 ∧ c.cmd.extractLsb' 6 26 ≠ 0) ∨
      (c.cmd.extractLsb' 0 4 = 2 ∧ (c.cmd.extractLsb' 12 20 ≠ 0 ∨ c.cmd.extractLsb' 4 4 ≠ 0)) ∨
      (c.cmd.extractLsb' 0 4 = 3 ∧ c.cmd.extractLsb' 4 28 ≠ 0) ∨
      (c.cmd.extractLsb' 0 4 = 2 ∧ 9 ≤ (c.cmd.extractLsb' 8 4).toNat)) ∧
    ((∃ why, decode c = .illegal why) → s.inputs = .command c :: rest →
      step s = .next { s with inputs := rest, lasterr := .illegal, sticky := true })

-- ==== Stepping (45_commands.md section 1, 70_reset_and_hazards.md section 1) ====

/-- R180: presenting a command runs what the decoder reads from it, at the state with that input taken (log 1). -/
def Obligations.StepRunsTheDecodedCommand : Prop :=
  ∀ (s : State) (c : Command) (rest : List Input), s.inputs = .command c :: rest →
    (∀ i, decode c = .instr i → step s = exec i { s with inputs := rest }) ∧
    (∀ why, decode c = .illegal why → step s = .next (reject .illegal { s with inputs := rest })) ∧
    (∀ v, decode c = .instr (.init v) → step s = execInit v { s with inputs := rest }) ∧
    (∀ n din, decode c = .instr (.update n din) → step s = execUpdate n din { s with inputs := rest }) ∧
    (decode c = .instr .finalize → step s = execFinalize { s with inputs := rest })

/-- The command of a table word that the decoder accepts is what the very next step runs (log 1). -/
def Obligations.TableWordIsRunNext : Prop :=
  ∀ (s : State) (nbits w : Nat) (i : Instr),
    decodeTableWord nbits w = some i → step (s.withFetchWord nbits w) = exec i s

/-- R194, R20: with nothing from the host the block does nothing (the empty input list is the model's, log 1). -/
def Obligations.NothingHappensWithoutInput : Prop :=
  ∀ s : State, s.inputs = [] → step s = .next s

/-- R210: no condition of the block traps: whatever the state and the input, a step answers a next state. -/
def Obligations.EveryStepAnswersANextState : Prop :=
  ∀ s : State, ∃ t : State, step s = .next t

/-- R230: reset, also while a command is in progress, sets every piece of state the spec gives a reset value; what H
and BUF then hold is the model's choice (logs 2 and 3) and is not said here. The input list is the model's (log 1). -/
def Obligations.ResetSetsTheResetValues : Prop :=
  ∀ (s : State) (rest : List Input), (s.inputs = .reset :: rest ∨ ∃ c, s.inputs = .resetDuring c :: rest) →
    ∃ t : State, step s = .next t ∧ t.sess = .idle ∧ t.var = .sha224 ∧ t.bufcnt = 0 ∧ t.len = 0 ∧
      (∀ i : Fin 64, t.digest[i] = 0x00) ∧ t.dlen = 0 ∧ t.dvalid = false ∧ t.lasterr = .ok ∧
      t.sticky = false ∧ t.inputs = rest

/-- R33: the machine right after reset, through its ports and in the fields R33 gives a value. -/
def Obligations.ResetStateHoldsTheResetValues : Prop :=
  status State.reset = 0x00000000 ∧ lenout State.reset = 0 ∧ (∀ i : Fin 64, dout State.reset i = 0x00) ∧
  State.reset.sess = .idle ∧ State.reset.var.code = 0 ∧ State.reset.bufcnt = 0 ∧ State.reset.len = 0 ∧
  State.reset.dlen = 0 ∧ State.reset.dvalid = false ∧ State.reset.lasterr = .ok ∧ State.reset.sticky = false

/-- R60: INIT and FINALIZE ignore din: a command word that is not an UPDATE has the same step whatever din holds. -/
def Obligations.OnlyUpdateReadsDin : Prop :=
  ∀ (s : State) (rest : List Input) (cmd : BitVec 32) (din din' : BitVec 64),
    (∀ n d, decode ⟨cmd, din⟩ ≠ .instr (.update n d)) →
    step { s with inputs := .command ⟨cmd, din⟩ :: rest } = step { s with inputs := .command ⟨cmd, din'⟩ :: rest }

-- ==== INIT ====

/-- R183: INIT completes in every state, loads the variant's initial vector and clears the session and the digest;
it writes neither STICKY nor BUF, and a second INIT gives the same state as one. -/
def Obligations.InitStartsAFreshSession : Prop :=
  ∀ (v : Variant) (s : State), ∃ t : State,
    exec (.init v) s = .next t ∧ t.var = v ∧
    (∀ i : Fin 8, t.h[i] =
      (match v with
        | .sha224 => ivSha224[i].setWidth 64
        | .sha256 => ivSha256[i].setWidth 64
        | .sha384 => ivSha384[i]
        | .sha512 => ivSha512[i])) ∧
    t.bufcnt = 0 ∧ t.len = 0 ∧ (∀ i : Fin 64, t.digest[i] = 0x00) ∧ t.dlen = 0 ∧ t.dvalid = false ∧
    t.sess = .empty ∧ t.lasterr = .ok ∧ t.sticky = s.sticky ∧ t.buf = s.buf ∧ t.inputs = s.inputs ∧
    exec (.init v) t = .next t

-- ==== UPDATE ====

/-- R185: in an open session an UPDATE of 0..8 bytes that fits completes: LEN counts its bits, SESS becomes ACCUM,
LASTERR OK, and nothing changes but those, H, BUF and BUFCNT. -/
def Obligations.UpdateCompletesWhereItFits : Prop :=
  ∀ (s : State) (n : BitVec 4) (din : BitVec 64),
    s.Open → n.toNat ≤ 8 → s.len.toNat + 8 * n.toNat ≤ maxLen (famOf s.var) →
    ∃ t : State, exec (.update n din) s = .next t ∧
      t.len.toNat = s.len.toNat + 8 * n.toNat ∧ t.sess = .accum ∧ t.lasterr = .ok ∧
      t.var = s.var ∧ t.digest = s.digest ∧ t.dlen = s.dlen ∧ t.dvalid = s.dvalid ∧ t.sticky = s.sticky ∧
      t.inputs = s.inputs

/-- R186 where the bytes do not complete a block: they are stored at BUFCNT and up, every other byte of BUF and H
are unchanged, and BUFCNT moves by n. -/
def Obligations.UpdateWithinABlockOnlyBuffers : Prop :=
  ∀ (s : State) (n : BitVec 4) (din : BitVec 64),
    s.Open → n.toNat ≤ 8 → s.len.toNat + 8 * n.toNat ≤ maxLen (famOf s.var) →
    s.bufcnt.toNat + n.toNat < blockBytes (famOf s.var) →
    ∃ t : State, exec (.update n din) s = .next t ∧ t.h = s.h ∧
      t.bufcnt.toNat = s.bufcnt.toNat + n.toNat ∧
      ∀ i : Fin 128, t.buf[i] =
        if s.bufcnt.toNat ≤ i.val ∧ i.val < s.bufcnt.toNat + n.toNat
        then din.extractLsb' (56 - 8 * (i.val - s.bufcnt.toNat)) 8 else s.buf[i]

/-- R186, R187 where the bytes complete a block: exactly one block is compressed, the buffered bytes and the first
bytes of the command, and the rest start the next block at BUF[0]; no other byte of BUF changes. -/
def Obligations.UpdateAcrossABlockCompressesItOnce : Prop :=
  ∀ (s : State) (n : BitVec 4) (din : BitVec 64),
    s.Open → n.toNat ≤ 8 → s.len.toNat + 8 * n.toNat ≤ maxLen (famOf s.var) →
    s.bufcnt.toNat < blockBytes (famOf s.var) → blockBytes (famOf s.var) ≤ s.bufcnt.toNat + n.toNat →
    ∃ t : State, exec (.update n din) s = .next t ∧
      t.h = compressH (famOf s.var) s.h
        (remainder s ++ (List.range (blockBytes (famOf s.var) - s.bufcnt.toNat)).map
          fun j => din.extractLsb' (56 - 8 * j) 8) ∧
      t.bufcnt.toNat = s.bufcnt.toNat + n.toNat - blockBytes (famOf s.var) ∧
      ∀ i : Fin 128, t.buf[i] =
        if i.val < s.bufcnt.toNat + n.toNat - blockBytes (famOf s.var)
        then din.extractLsb' (56 - 8 * (blockBytes (famOf s.var) - s.bufcnt.toNat + i.val)) 8
        else if s.bufcnt.toNat ≤ i.val ∧ i.val < blockBytes (famOf s.var)
        then din.extractLsb' (56 - 8 * (i.val - s.bufcnt.toNat)) 8 else s.buf[i]

/-- R43: lanes at and above n are ignored, whatever they hold. -/
def Obligations.UnusedLanesAreIgnored : Prop :=
  ∀ (s : State) (n : BitVec 4) (din din' : BitVec 64),
    (∀ j, j < n.toNat → din.extractLsb' (56 - 8 * j) 8 = din'.extractLsb' (56 - 8 * j) 8) →
    exec (.update n din) s = exec (.update n din') s

/-- R217: an UPDATE whose bytes the length field cannot count is rejected with LENGTH and changes nothing else; the
session stays open: a smaller UPDATE that fits is accepted, and FINALIZE gives the digest it would have given. -/
def Obligations.LengthOverflowIsRejectedWhole : Prop :=
  ∀ (s : State) (n : BitVec 4) (din : BitVec 64),
    s.Open → n.toNat ≤ 8 → s.len.toNat + 8 * n.toNat > 2 ^ (8 * lengthBytes (famOf s.var)) - 1 →
    ∃ t : State, exec (.update n din) s = .next t ∧ t = { s with lasterr := .length, sticky := true } ∧
      (∀ (m : BitVec 4) (d : BitVec 64), m.toNat ≤ 8 →
        s.len.toNat + 8 * m.toNat ≤ 2 ^ (8 * lengthBytes (famOf s.var)) - 1 →
        ∃ u : State, exec (.update m d) t = .next u ∧ u.lasterr = .ok) ∧
      ∃ u u' : State, exec .finalize s = .next u ∧ exec .finalize t = .next u' ∧ u'.lasterr = .ok ∧
        u'.digest = u.digest ∧ u'.dlen = u.dlen

/-- R188: the greatest LEN an invariant state holds is 2^(8*LF) - 8, and the largest UPDATE into the limit is
accepted up to it: for fam 32 the bound is 2^64 - 1, for fam 64 it is 2^128 - 1. -/
def Obligations.GreatestLengthIsEightBelowTheField : Prop :=
  ∀ s : State, Inv s →
    (famOf s.var = .fam32 → s.len.toNat ≤ 2 ^ 64 - 8) ∧ (famOf s.var = .fam64 → s.len.toNat ≤ 2 ^ 128 - 8) ∧
    (s.Open → ∀ (n : BitVec 4) (din : BitVec 64), n.toNat ≤ 8 →
      ∃ t : State, exec (.update n din) s = .next t ∧
        (t.lasterr = .ok ↔
          s.len.toNat + 8 * n.toNat ≤ (match famOf s.var with | .fam32 => 2 ^ 64 - 1 | .fam64 => 2 ^ 128 - 1)))

-- ==== FINALIZE ====

/-- R189, R190: in an open session FINALIZE completes: it compresses the padded blocks in order, writes the digest,
its length and zeros after it, and keeps LEN, VAR, BUF and STICKY. -/
def Obligations.FinalizeWritesTheDigest : Prop :=
  ∀ s : State, s.Open → ∃ t : State,
    exec .finalize s = .next t ∧
    t.h = (pad (famOf s.var) (remainder s) s.len.toNat).foldl (compressH (famOf s.var)) s.h ∧
    (∀ i : Fin 64, t.digest[i] = (serialize s.var t.h).getD i.val 0x00) ∧
    t.dlen.toNat = (match s.var with | .sha224 => 28 | .sha256 => 32 | .sha384 => 48 | .sha512 => 64) ∧
    t.dvalid = true ∧ t.bufcnt = 0 ∧ t.sess = .final ∧ t.lasterr = .ok ∧
    t.len = s.len ∧ t.var = s.var ∧ t.buf = s.buf ∧ t.sticky = s.sticky ∧ t.inputs = s.inputs

/-- R172: the digest length depends on the variant alone: 28, 32, 48 or 64 bytes whatever the state. -/
def Obligations.DigestLengthDependsOnTheVariantAlone : Prop :=
  ∀ (v : Variant) (h : Vector (BitVec 64) 8),
    (serialize v h).length = (match v with | .sha224 => 28 | .sha256 => 32 | .sha384 => 48 | .sha512 => 64)

/-- R170: serialize gives Nd(v)*w/8 bytes, Nd = 7, 8, 6, 8 for v = 0, 1, 2, 3: byte k, from the most significant, of
word i stands at i*w/8 + k, for the Nd words i. -/
def Obligations.DigestBytesAreTheWordsBigEndian : Prop :=
  (digestWords .sha224 = 7 ∧ digestWords .sha256 = 8 ∧ digestWords .sha384 = 6 ∧ digestWords .sha512 = 8) ∧
  ∀ (v : Variant) (h : Vector (BitVec 64) 8),
    (serialize v h).length = digestWords v * (wordBits (famOf v) / 8) ∧
    ∀ (i k : Nat) (hi : i < 8), i < digestWords v → k < wordBits (famOf v) / 8 →
      (serialize v h)[i * (wordBits (famOf v) / 8) + k]? =
        some (h[i].extractLsb' (wordBits (famOf v) - 8 * (k + 1)) 8)

-- ==== Rejections, session transitions, status ====

/-- R215: UPDATE and FINALIZE before any INIT are rejected with NOT_INIT and change nothing else. -/
def Obligations.NothingRunsBeforeInit : Prop :=
  ∀ s : State, s.sess = .idle →
    (∀ (n : BitVec 4) (din : BitVec 64), n.toNat ≤ 8 →
      exec (.update n din) s = .next { s with lasterr := .notInit, sticky := true }) ∧
    exec .finalize s = .next { s with lasterr := .notInit, sticky := true }

/-- R216: UPDATE and FINALIZE after FINALIZE are rejected with FINALIZED; the digest, DLEN and DVALID stay. -/
def Obligations.NothingRunsAfterFinalize : Prop :=
  ∀ s : State, s.sess = .final →
    (∀ (n : BitVec 4) (din : BitVec 64), n.toNat ≤ 8 →
      exec (.update n din) s = .next { s with lasterr := .finalized, sticky := true }) ∧
    exec .finalize s = .next { s with lasterr := .finalized, sticky := true }

/-- R181: a command is accepted and leaves LASTERR = OK and STICKY as it was, or is rejected and changes LASTERR and
STICKY alone; an illegal word is rejected. -/
def Obligations.RejectionsChangeOnlyTheErrorState : Prop :=
  (∀ (i : Instr) (s t : State), exec i s = .next t →
    (t.lasterr = .ok ∧ t.sticky = s.sticky) ∨
    ∃ code : ErrCode, code ≠ .ok ∧ t = { s with lasterr := code, sticky := true }) ∧
  ∀ s : State, execIllegal s = .next { s with lasterr := .illegal, sticky := true }

/-- R218: the checks in order, the first that holds wins: ILLEGAL, NOT_INIT, FINALIZED, LENGTH; with none of them the
command is accepted. Presenting a command is the model's input list (log 1). -/
def Obligations.ErrorsAreReportedInPriorityOrder : Prop :=
  ∀ (s t : State) (c : Command) (rest : List Input), s.inputs = .command c :: rest → step s = .next t →
    t.lasterr =
      match decode c with
      | .illegal _ => .illegal
      | .instr (.init _) => .ok
      | .instr (.update n _) =>
        if s.sess = .idle then .notInit
        else if s.sess = .final then .finalized
        else if s.len.toNat + 8 * n.toNat > maxLen (famOf s.var) then .length else .ok
      | .instr .finalize =>
        if s.sess = .idle then .notInit else if s.sess = .final then .finalized else .ok

/-- R182: the whole table of session transitions, row by row. -/
def Obligations.SessionTransitionTable : Prop :=
  ∀ (s : State) (n : BitVec 4) (din : BitVec 64), n.toNat ≤ 8 →
    (∀ v, ∃ t, exec (.init v) s = .next t ∧ t.sess = .empty ∧ t.lasterr = .ok) ∧
    (∃ t, execIllegal s = .next t ∧ t.sess = s.sess ∧ t.lasterr = .illegal) ∧
    (s.sess = .idle →
      (∃ t, exec (.update n din) s = .next t ∧ t.sess = .idle ∧ t.lasterr = .notInit) ∧
      (∃ t, exec .finalize s = .next t ∧ t.sess = .idle ∧ t.lasterr = .notInit)) ∧
    (s.Open →
      (∃ t, exec (.update n din) s = .next t ∧
        ((t.sess = .accum ∧ t.lasterr = .ok) ∨ (t.sess = s.sess ∧ t.lasterr = .length))) ∧
      (∃ t, exec .finalize s = .next t ∧ t.sess = .final ∧ t.lasterr = .ok)) ∧
    (s.sess = .final →
      (∃ t, exec (.update n din) s = .next t ∧ t.sess = .final ∧ t.lasterr = .finalized) ∧
      (∃ t, exec .finalize s = .next t ∧ t.sess = .final ∧ t.lasterr = .finalized))

/-- R31, R32: the fields of STATUS bit by bit, its reserved bits, its legal values between commands, and its reset
value; LENOUT returns LEN and DOUT[i] returns DIGEST[i]. -/
def Obligations.StatusFieldsAreWhereTheTableSays : Prop :=
  (∀ s : State,
    (status s).extractLsb' 0 2 =
      (match s.sess with | .idle => 0 | .empty => 1 | .accum => 2 | .final => 3) ∧
    (status s).extractLsb' 2 2 =
      (match s.var with | .sha224 => 0 | .sha256 => 1 | .sha384 => 2 | .sha512 => 3) ∧
    (status s).extractLsb' 4 3 =
      (match s.lasterr with | .ok => 0 | .illegal => 1 | .notInit => 2 | .finalized => 3 | .length => 4) ∧
    (status s).getLsbD 7 = s.sticky ∧ (status s).extractLsb' 8 7 = s.bufcnt ∧
    (status s).getLsbD 15 = s.dvalid ∧ (status s).extractLsb' 16 7 = s.dlen ∧
    (status s).extractLsb' 23 9 = 0) ∧
  (∀ s : State, Inv s →
    ((status s).extractLsb' 4 3).toNat ≤ 4 ∧
    ((status s).extractLsb' 8 7).toNat ≤ blockBytes (famOf s.var) - 1 ∧
    ((status s).extractLsb' 16 7).toNat ∈ [0, 28, 32, 48, 64]) ∧
  status State.reset = 0 ∧
  ∀ s : State, lenout s = s.len ∧ ∀ i : Fin 64, dout s i = s.digest[i]

-- ==== Rules of the whole machine, over every input ====

/-- R28, R232: no command clears STICKY: after a step it is clear only if it was clear before and the step rejected
nothing, or the step was a reset. -/
def Obligations.OnlyResetClearsSticky : Prop :=
  ∀ s t : State, step s = .next t → s.sticky = true → t.sticky = false →
    ∃ rest, s.inputs = .reset :: rest ∨ ∃ c, s.inputs = .resetDuring c :: rest

/-- R26, R184: VAR changes, and FINAL and IDLE are left, only by an INIT (or by reset). -/
def Obligations.OnlyInitSelectsTheVariantAndLeavesFinal : Prop :=
  ∀ s t : State, step s = .next t →
    (t.var ≠ s.var ∨ (s.sess = .final ∧ t.sess ≠ .final) ∨ (s.sess = .idle ∧ t.sess ≠ .idle)) →
    (∃ c rest v, s.inputs = .command c :: rest ∧ decode c = .instr (.init v) ∧ t.sess = .empty ∧ t.var = v) ∨
    (∃ rest, s.inputs = .reset :: rest ∨ ∃ c, s.inputs = .resetDuring c :: rest)

/-- R21, R186, R189: H changes only by an INIT, a reset, an UPDATE that completes a block, or a FINALIZE of an open
session. -/
def Obligations.HashStateChangesOnlyByInitAndCompression : Prop :=
  ∀ s t : State, Inv s → step s = .next t → t.h ≠ s.h →
    (∃ c rest, s.inputs = .command c :: rest ∧
      ((∃ v, decode c = .instr (.init v)) ∨
        (∃ n din, decode c = .instr (.update n din) ∧ s.Open ∧
          blockBytes (famOf s.var) ≤ s.bufcnt.toNat + n.toNat) ∨
        (decode c = .instr .finalize ∧ s.Open))) ∨
    (∃ rest, s.inputs = .reset :: rest ∨ ∃ c, s.inputs = .resetDuring c :: rest)

/-- R236: after FINALIZE the digest, DLEN and DVALID stay until the next INIT or reset, whatever the host does. -/
def Obligations.TheDigestLastsUntilInitOrReset : Prop :=
  ∀ s t : State, s.sess = .final → step s = .next t →
    (t.sess = .final ∧ (∀ i : Fin 64, dout t i = dout s i) ∧ t.dlen = s.dlen ∧ t.dvalid = s.dvalid ∧
      lenout t = lenout s) ∨
    (∃ c rest v, s.inputs = .command c :: rest ∧ decode c = .instr (.init v)) ∨
    (∃ rest, s.inputs = .reset :: rest ∨ ∃ c, s.inputs = .resetDuring c :: rest)

/-- R236, R34 (e): while DVALID = 0 every byte of DOUT reads 0x00, and DVALID = 1 in FINAL alone. -/
def Obligations.NoDigestIsShownUnlessValid : Prop :=
  ∀ s t : State, Inv s → step s = .next t →
    (t.dvalid = false → ∀ i : Fin 64, dout t i = 0x00) ∧ (t.dvalid = true ↔ t.sess = .final)

/-- The reset state meets the invariants of R34. Its H is the model's choice (log 2), so clause (f) of it is too. -/
def Obligations.ResetMeetsTheInvariants : Prop := Inv State.reset

/-- R34: the invariants between commands are kept by every step, whatever the host's input (the model's list, log 1).
After a reset step clause (f) rests on the model's H (log 2). -/
def Obligations.EveryStepKeepsTheInvariants : Prop :=
  ∀ s t : State, Inv s → step s = .next t → Inv t

/-- R33, R23, R227: what H holds while no session is open, and BUF at and above BUFCNT, can never be observed: two
states that differ only there step to two states that differ only there. -/
def Obligations.HiddenStateIsNeverObserved : Prop :=
  (∀ s t : State, SameToHost s t →
    status s = status t ∧ lenout s = lenout t ∧ ∀ i : Fin 64, dout s i = dout t i) ∧
  ∀ s t s' : State, SameToHost s t → step s = .next s' → ∃ t' : State, step t = .next t' ∧ SameToHost s' t'

-- ==== Sessions and messages ====

/-- R34 (c), R183: INIT opens a session that has accepted the empty message. -/
def Obligations.InitAcceptsTheEmptyMessage : Prop :=
  ∀ (v : Variant) (s : State), ∃ t : State, exec (.init v) s = .next t ∧ Accepted v [] t

/-- R34 (c), R186: an accepted UPDATE appends exactly its n bytes to the accepted message. -/
def Obligations.UpdateAppendsItsBytesToTheMessage : Prop :=
  ∀ (v : Variant) (m : List Byte) (s : State) (n : BitVec 4) (din : BitVec 64),
    Accepted v m s → n.toNat ≤ 8 → 8 * (m.length + n.toNat) ≤ maxLen (famOf v) →
    ∃ t : State, exec (.update n din) s = .next t ∧ Accepted v (m ++ dinBytes n din) t

/-- R189, R106: FINALIZE of a session that has accepted a message shows the SHA-2 digest of that message. -/
def Obligations.FinalizeShowsTheDigestOfTheMessage : Prop :=
  ∀ (v : Variant) (m : List Byte) (s : State), Accepted v m s →
    ∃ t : State, exec .finalize s = .next t ∧ t.dlen.toNat = (sha2 v m).length ∧
      ∀ i : Fin 64, dout t i = (sha2 v m).getD i.val 0x00

/-- R50: two sequences of accepted UPDATEs that deliver the same bytes leave the same H, buffered bytes, BUFCNT and LEN,
whatever the split; SESS is left by an empty sequence alone; and the digest is the same. -/
def Obligations.ChunkingDoesNotMatter : Prop :=
  ∀ (s : State) (us us' : List (BitVec 4 × BitVec 64)),
    s.Open → (∀ u ∈ us, u.1.toNat ≤ 8) → (∀ u ∈ us', u.1.toNat ≤ 8) →
    us.flatMap (fun u => dinBytes u.1 u.2) = us'.flatMap (fun u => dinBytes u.1 u.2) →
    s.len.toNat + 8 * (us.flatMap fun u => dinBytes u.1 u.2).length ≤ maxLen (famOf s.var) →
    ∃ t t' : State,
      runInstrs (us.map fun u => .update u.1 u.2) s = .next t ∧
      runInstrs (us'.map fun u => .update u.1 u.2) s = .next t' ∧
      t.h = t'.h ∧ remainder t = remainder t' ∧ t.bufcnt = t'.bufcnt ∧ t.len = t'.len ∧
      t.sess = (if us = [] then s.sess else .accum) ∧ t'.sess = (if us' = [] then s.sess else .accum) ∧
      ∃ u u' : State, exec .finalize t = .next u ∧ exec .finalize t' = .next u' ∧ u.digest = u'.digest

/-- R193: the command sequence HASH v, m, issued from any state, leaves SESS = FINAL and the SHA-2 digest of m in
DOUT[0..DLEN-1]. The sequence is presented as the model's input list (log 1). -/
def Obligations.OneShotHashGivesTheSha2Digest : Prop :=
  ∀ (v : Variant) (m : List Byte) (s : State) (rest : List Input), 8 * m.length ≤ maxLen (famOf v) →
    ∃ t : State,
      core.run (hashProgram v m).length { s with inputs := present (hashProgram v m) ++ rest } = .next t ∧
      t.sess = .final ∧ t.inputs = rest ∧ t.dlen.toNat = (sha2 v m).length ∧
      ∀ i : Fin 64, dout t i = (sha2 v m).getD i.val 0x00

-- ==== The ROM (40_constant_rom.md) ====

/-- R83: K32[t] and K64[t] are the first 32 and 64 bits of the fraction of the cube root of the (t+1)-th prime (the
prime with t primes below it), and the high half of K64[t] is K32[t]. -/
def Obligations.RoundConstantsAreCubeRootFractions : Prop :=
  k32.length = 64 ∧ k64.length = 80 ∧
  Nat.count Nat.Prime 2 = 0 ∧ Nat.count Nat.Prime 311 = 63 ∧ Nat.count Nat.Prime 409 = 79 ∧
  (∀ p : Nat, p.Prime → Nat.count Nat.Prime p < 64 → ∃ c : Nat,
    c ^ 3 ≤ p * 2 ^ (3 * 32) ∧ p * 2 ^ (3 * 32) < (c + 1) ^ 3 ∧
    (kRom engine32 (Nat.count Nat.Prime p)).toNat = c % 2 ^ 32) ∧
  (∀ p : Nat, p.Prime → Nat.count Nat.Prime p < 80 → ∃ c : Nat,
    c ^ 3 ≤ p * 2 ^ (3 * 64) ∧ p * 2 ^ (3 * 64) < (c + 1) ^ 3 ∧
    (kRom engine64 (Nat.count Nat.Prime p)).toNat = c % 2 ^ 64) ∧
  ∀ t : Nat, t < 64 → (kRom engine64 t).extractLsb' 32 32 = kRom engine32 t

/-- R87: the initial vectors are the first bits of the fractions of the square roots of the first sixteen primes
(the prime with i primes below it is p_i), as the four lines of R87 say, and no word is shared within a family. -/
def Obligations.InitialVectorsAreSquareRootFractions : Prop :=
  (∀ (p : Nat) (i : Fin 8), p.Prime → Nat.count Nat.Prime p = i.val →
    ivSha256[i].toNat = Nat.sqrt (p * 2 ^ (2 * 32)) % 2 ^ 32 ∧
    ivSha512[i].toNat = Nat.sqrt (p * 2 ^ (2 * 64)) % 2 ^ 64) ∧
  (∀ (p : Nat) (i : Fin 8), p.Prime → Nat.count Nat.Prime p = i.val + 8 →
    ivSha384[i].toNat = Nat.sqrt (p * 2 ^ (2 * 64)) % 2 ^ 64 ∧
    ivSha224[i].toNat = Nat.sqrt (p * 2 ^ (2 * 64)) % 2 ^ 64 % 2 ^ 32) ∧
  ∀ i : Fin 8, ivSha224[i] ≠ ivSha256[i] ∧ ivSha384[i] ≠ ivSha512[i] ∧
    ivSha384[i].extractLsb' 0 32 = ivSha224[i] ∧ ivSha512[i].extractLsb' 32 32 = ivSha256[i]

-- ==== Words, bytes and padding ====

/-- R11's sentence that every rotate amount lies in 1..w-1, for one engine. -/
def RotateAmountsAreInRange {w : Nat} (e : Engine w) : Prop :=
  ∀ n ∈ [e.bigSigma0.1, e.bigSigma0.2.1, e.bigSigma0.2.2, e.bigSigma1.1, e.bigSigma1.2.1, e.bigSigma1.2.2,
    e.smallSigma0.1, e.smallSigma0.2.1, e.smallSigma1.1, e.smallSigma1.2.1], 0 < n ∧ n < w

/-- R11, R12: bit i of rotr_w(x, n) is bit (i + n) mod w of x, which is the formula of R11; shr_w is division by 2^n;
every rotate amount the engines use lies in 1..w-1. -/
def Obligations.RotateAndShiftMoveBits : Prop :=
  (∀ (w n : Nat) (x : BitVec w), 0 < n → n < w →
    (∀ i, i < w → (rotr x n).getLsbD i = x.getLsbD ((i + n) % w)) ∧
    (rotr x n).toNat = (x.toNat / 2 ^ n ||| x.toNat * 2 ^ (w - n)) % 2 ^ w ∧
    (shr x n).toNat = x.toNat / 2 ^ n ∧ ∀ i, w ≤ i + n → (shr x n).getLsbD i = false) ∧
  RotateAmountsAreInRange engine32 ∧ RotateAmountsAreInRange engine64

/-- R14, R15: BE_w is the weighted sum of the bytes, bytes_BE lists the bytes of a number, the most significant first,
and each undoes the other. -/
def Obligations.BigEndianConversionsAreInverse : Prop :=
  (∀ s : List Byte,
    natOfBytes s = ∑ j ∈ Finset.range s.length, (s.getD j 0).toNat * 2 ^ (8 * (s.length - (j + 1)))) ∧
  (∀ w k (s : List Byte), w = 8 * k → s.length = k →
    (wordOfBytes w s).toNat = natOfBytes s ∧ bytesBE (wordOfBytes w s).toNat k = s) ∧
  ∀ x k : Nat, x < 2 ^ (8 * k) →
    (bytesBE x k).length = k ∧ natOfBytes (bytesBE x k) = x ∧
    ∀ j, j < k → (bytesBE x k)[j]? = some (BitVec.ofNat 8 (x / 2 ^ (8 * (k - (j + 1)))))

/-- R101, R102: the padding is 0x80, z zero bytes and the length field, for the least z that R101 asks for and computes
with the mathematical mod; the block count is 1 or 2, 1 exactly when r + 1 + LF <= B. -/
def Obligations.PaddingUsesTheFewestZeros : Prop :=
  ∀ (fam : Fam) (rem : List Byte) (len : Nat), rem.length < blockBytes fam →
    ∃ z : Nat,
      padBytes fam rem len = rem ++ [0x80] ++ List.replicate z 0x00 ++ bytesBE len (lengthBytes fam) ∧
      (z : Int) = ((blockBytes fam : Int) - lengthBytes fam - rem.length - 1) % blockBytes fam ∧
      (rem.length + 1 + z) % blockBytes fam = (blockBytes fam - lengthBytes fam) % blockBytes fam ∧
      (∀ y, y < z →
        (rem.length + 1 + y) % blockBytes fam ≠ (blockBytes fam - lengthBytes fam) % blockBytes fam) ∧
      (pad fam rem len).length * blockBytes fam = rem.length + 1 + z + lengthBytes fam ∧
      (((pad fam rem len).length = 1 ∧ rem.length + 1 + lengthBytes fam ≤ blockBytes fam) ∨
        ((pad fam rem len).length = 2 ∧ blockBytes fam < rem.length + 1 + lengthBytes fam))

/-- R103: the bytes of the padded blocks, by index: the remainder, 0x80, zeros, and the length field at the end of the
last block; every block has B bytes, and the 0x80 byte is in the first. -/
def Obligations.PaddedBlocksHoldTheRemainderAndTheLength : Prop :=
  ∀ (fam : Fam) (rem : List Byte) (len : Nat),
    rem.length < blockBytes fam → len < 2 ^ (8 * lengthBytes fam) →
    let blocks := pad fam rem len
    let k := if rem.length + 1 + lengthBytes fam ≤ blockBytes fam then 1 else 2
    blocks.length = k ∧ (∀ b ∈ blocks, b.length = blockBytes fam) ∧
    ((blocks.getD 0 []).getD rem.length 0 = 0x80) ∧
    ∀ i, i < k * blockBytes fam →
      blocks.flatten[i]? = some
        (if i < rem.length then rem.getD i 0
          else if i = rem.length then 0x80
          else if i < k * blockBytes fam - lengthBytes fam then 0x00
          else (bytesBE len (lengthBytes fam)).getD (i - (k * blockBytes fam - lengthBytes fam)) 0)

/-- R106: the blocks of one session, every full block of the message and then the blocks of pad, are exactly the padded
message cut into consecutive blocks. -/
def Obligations.SessionBlocksAreThePaddedMessage : Prop :=
  ∀ (fam : Fam) (m : List Byte),
    paddedMessage fam m =
      (chunks (blockBytes fam) (m.length / blockBytes fam) m ++
        pad fam (m.drop (m.length / blockBytes fam * blockBytes fam)) (8 * m.length)).flatten ∧
    (paddedMessage fam m).length % blockBytes fam = 0 ∧
    chunks (blockBytes fam) ((paddedMessage fam m).length / blockBytes fam) (paddedMessage fam m) =
      chunks (blockBytes fam) (m.length / blockBytes fam) m ++
        pad fam (m.drop (m.length / blockBytes fam * blockBytes fam)) (8 * m.length)

-- ==== Schedule and compression ====

/-- R121 to R124: the four small-sigma functions: their formulas, corner values and examples, and that each is linear
over exclusive or. -/
def Obligations.SmallSigmaFunctions : Prop :=
  (∀ x : BitVec 32, sigma0 engine32 x = rotr x 7 ^^^ rotr x 18 ^^^ shr x 3) ∧
  (∀ x : BitVec 32, sigma1 engine32 x = rotr x 17 ^^^ rotr x 19 ^^^ shr x 10) ∧
  (∀ x : BitVec 64, sigma0 engine64 x = rotr x 1 ^^^ rotr x 8 ^^^ shr x 7) ∧
  (∀ x : BitVec 64, sigma1 engine64 x = rotr x 19 ^^^ rotr x 61 ^^^ shr x 6) ∧
  (∀ x y : BitVec 32, sigma0 engine32 (x ^^^ y) = sigma0 engine32 x ^^^ sigma0 engine32 y ∧
    sigma1 engine32 (x ^^^ y) = sigma1 engine32 x ^^^ sigma1 engine32 y) ∧
  (∀ x y : BitVec 64, sigma0 engine64 (x ^^^ y) = sigma0 engine64 x ^^^ sigma0 engine64 y ∧
    sigma1 engine64 (x ^^^ y) = sigma1 engine64 x ^^^ sigma1 engine64 y) ∧
  sigma0 engine32 0 = 0 ∧ sigma0 engine32 0xffffffff = 0x1fffffff ∧ sigma0 engine32 1 = 0x02004000 ∧
  sigma1 engine32 0 = 0 ∧ sigma1 engine32 0xffffffff = 0x003fffff ∧ sigma1 engine32 1 = 0x0000a000 ∧
  sigma0 engine64 0 = 0 ∧ sigma0 engine64 0xffffffffffffffff = 0x01ffffffffffffff ∧
  sigma0 engine64 1 = 0x8100000000000000 ∧
  sigma1 engine64 0 = 0 ∧ sigma1 engine64 0xffffffffffffffff = 0x03ffffffffffffff ∧
  sigma1 engine64 1 = 0x0000200000000008

/-- R141 to R144: the four big-sigma functions: their formulas, corner values and examples, and that each is linear over
exclusive or. -/
def Obligations.BigSigmaFunctions : Prop :=
  (∀ x : BitVec 32, bigSigma0 engine32 x = rotr x 2 ^^^ rotr x 13 ^^^ rotr x 22) ∧
  (∀ x : BitVec 32, bigSigma1 engine32 x = rotr x 6 ^^^ rotr x 11 ^^^ rotr x 25) ∧
  (∀ x : BitVec 64, bigSigma0 engine64 x = rotr x 28 ^^^ rotr x 34 ^^^ rotr x 39) ∧
  (∀ x : BitVec 64, bigSigma1 engine64 x = rotr x 14 ^^^ rotr x 18 ^^^ rotr x 41) ∧
  (∀ x y : BitVec 32, bigSigma0 engine32 (x ^^^ y) = bigSigma0 engine32 x ^^^ bigSigma0 engine32 y ∧
    bigSigma1 engine32 (x ^^^ y) = bigSigma1 engine32 x ^^^ bigSigma1 engine32 y) ∧
  (∀ x y : BitVec 64, bigSigma0 engine64 (x ^^^ y) = bigSigma0 engine64 x ^^^ bigSigma0 engine64 y ∧
    bigSigma1 engine64 (x ^^^ y) = bigSigma1 engine64 x ^^^ bigSigma1 engine64 y) ∧
  bigSigma0 engine32 0 = 0 ∧ bigSigma0 engine32 0xffffffff = 0xffffffff ∧
  bigSigma0 engine32 1 = 0x40080400 ∧ bigSigma0 engine32 0x6a09e667 = 0xce20b47e ∧
  bigSigma1 engine32 0 = 0 ∧ bigSigma1 engine32 0xffffffff = 0xffffffff ∧
  bigSigma1 engine32 1 = 0x04200080 ∧ bigSigma1 engine32 0x510e527f = 0x3587272b ∧
  bigSigma0 engine64 0 = 0 ∧ bigSigma0 engine64 0xffffffffffffffff = 0xffffffffffffffff ∧
  bigSigma0 engine64 1 = 0x0000001042000000 ∧
  bigSigma1 engine64 0 = 0 ∧ bigSigma1 engine64 0xffffffffffffffff = 0xffffffffffffffff ∧
  bigSigma1 engine64 1 = 0x0004400000800000

/-- R145, R146: Ch is a bitwise multiplexer and Maj a bitwise majority, at every width, with their corner cases and
examples; Maj is symmetric. -/
def Obligations.ChoiceAndMajorityGates : Prop :=
  (∀ (w : Nat) (e f g : BitVec w), ch e f g = (e &&& f) ^^^ (~~~e &&& g) ∧
    (∀ i, (ch e f g).getLsbD i = if e.getLsbD i then f.getLsbD i else g.getLsbD i) ∧
    ch (BitVec.allOnes w) f g = f ∧ ch 0 f g = g ∧ ch e f f = f) ∧
  (∀ (w : Nat) (a b c : BitVec w), maj a b c = (a &&& b) ^^^ (a &&& c) ^^^ (b &&& c) ∧
    (∀ i, (maj a b c).getLsbD i =
      decide (2 ≤ (a.getLsbD i).toNat + (b.getLsbD i).toNat + (c.getLsbD i).toNat)) ∧
    maj a a c = a ∧ maj a c a = a ∧ maj c a a = a ∧ maj 0 0 c = 0 ∧
    maj (BitVec.allOnes w) (BitVec.allOnes w) c = BitVec.allOnes w ∧ maj a b c = maj b a c ∧ maj a b c = maj a c b) ∧
  ch 0x0f0f0f0f#32 0x00ff00ff#32 0x3333cccc#32 = 0x303fc0cf#32 ∧
  ch 0x510e527f#32 0x9b05688c#32 0x1f83d9ab#32 = 0x1f85c98c#32 ∧
  maj 0x0f0f0f0f#32 0x00ff00ff#32 0x3333cccc#32 = 0x033f0ccf#32 ∧
  maj 0x6a09e667#32 0xbb67ae85#32 0x3c6ef372#32 = 0x3a6fe667#32

/-- R125, R126, R127 for one engine of width w: the schedule has R words, its first sixteen are the block's big-endian
words, and every later word is the recurrence's. -/
def ScheduleFollowsTheRecurrence (w : Nat) (e : Engine w) : Prop :=
  ∀ m : List Byte, m.length = 16 * (w / 8) →
    (expand e m).length = e.rounds ∧
    (∀ t, t < 16 → (expand e m)[t]? =
      some (wordOfBytes w ((List.range (w / 8)).map fun j => m.getD (t * (w / 8) + j) 0))) ∧
    ∀ t, 16 ≤ t → t < e.rounds →
      (expand e m)[t]? = some
        (sigma1 e ((expand e m).getD (t - 2) 0) + (expand e m).getD (t - 7) 0
          + sigma0 e ((expand e m).getD (t - 15) 0) + (expand e m).getD (t - 16) 0)

/-- R125, R126, R127, in both families. -/
def Obligations.ScheduleWordsFollowTheRecurrence : Prop :=
  engine32.rounds = 64 ∧ engine64.rounds = 80 ∧
  ScheduleFollowsTheRecurrence 32 engine32 ∧ ScheduleFollowsTheRecurrence 64 engine64

/-- R45: block byte j is byte j mod (w/8), from the most significant end, of schedule word j div (w/8). -/
def Obligations.EachBlockByteIsInOneScheduleWord : Prop :=
  ∀ (m : List Byte) (j : Nat),
    (m.length = 64 → j < 64 →
      m[j]? = some (((expand engine32 m).getD (j / 4) 0).extractLsb' (24 - 8 * (j % 4)) 8)) ∧
    (m.length = 128 → j < 128 →
      m[j]? = some (((expand engine64 m).getD (j / 8) 0).extractLsb' (56 - 8 * (j % 8)) 8))

/-- R147, R148: one round, with the amounts of each family written out. -/
def Obligations.OneRoundUpdatesAllRegistersAtOnce : Prop :=
  (∀ (t : Nat) (s : Working 32) (wt : BitVec 32),
    let t1 := s.h + (rotr s.e 6 ^^^ rotr s.e 11 ^^^ rotr s.e 25) + ((s.e &&& s.f) ^^^ (~~~s.e &&& s.g))
      + kRom engine32 t + wt
    let t2 := (rotr s.a 2 ^^^ rotr s.a 13 ^^^ rotr s.a 22) + ((s.a &&& s.b) ^^^ (s.a &&& s.c) ^^^ (s.b &&& s.c))
    round engine32 t s wt = ⟨t1 + t2, s.a, s.b, s.c, s.d + t1, s.e, s.f, s.g⟩) ∧
  (∀ (t : Nat) (s : Working 64) (wt : BitVec 64),
    let t1 := s.h + (rotr s.e 14 ^^^ rotr s.e 18 ^^^ rotr s.e 41) + ((s.e &&& s.f) ^^^ (~~~s.e &&& s.g))
      + kRom engine64 t + wt
    let t2 := (rotr s.a 28 ^^^ rotr s.a 34 ^^^ rotr s.a 39) + ((s.a &&& s.b) ^^^ (s.a &&& s.c) ^^^ (s.b &&& s.c))
    round engine64 t s wt = ⟨t1 + t2, s.a, s.b, s.c, s.d + t1, s.e, s.f, s.g⟩)

/-- R150, R151 for one engine: from a..h = H[0..7], the rounds t = 0, 1, ... in increasing order, round t with W[t],
each from the registers the one before left, then the element-wise sums mod 2^w. -/
def CompressRunsTheRounds (w : Nat) (e : Engine w) : Prop :=
  ∀ (h : Vector (BitVec w) 8) (m : List Byte),
    let s := (List.range e.rounds).foldl (fun s t => round e t s ((expand e m).getD t 0))
      ⟨h[0], h[1], h[2], h[3], h[4], h[5], h[6], h[7]⟩
    compress e h m =
      #v[h[0] + s.a, h[1] + s.b, h[2] + s.c, h[3] + s.d, h[4] + s.e, h[5] + s.f, h[6] + s.g, h[7] + s.h]

/-- R150, R151, in both families: 64 rounds and 80 rounds. -/
def Obligations.CompressRunsTheRoundsInOrder : Prop :=
  engine32.rounds = 64 ∧ engine64.rounds = 80 ∧
  CompressRunsTheRounds 32 engine32 ∧ CompressRunsTheRounds 64 engine64

/-- R152, R156, R21: in the 32-bit family the compression reads only H[i][31:0] and leaves H[i][63:32] zero. -/
def Obligations.Family32KeepsTheHighHalvesZero : Prop :=
  ∀ (h h' : Vector (BitVec 64) 8) (m : List Byte),
    (∀ i : Fin 8, (compressH .fam32 h m)[i].extractLsb' 32 32 = 0) ∧
    ((∀ i : Fin 8, h[i].extractLsb' 0 32 = h'[i].extractLsb' 0 32) →
      compressH .fam32 h m = compressH .fam32 h' m)

/-- A realization that keeps only the last sixteen schedule words, newest last, and computes each word as its round
needs it (42_message_schedule.md R128): after the first sixteen rounds, run `n` more from round t. -/
def windowRounds {w : Nat} (e : Engine w) : Nat → Nat → List (Word w) → Working w → Working w
  | 0, _, _, s => s
  | n + 1, t, win, s =>
    let wt := sigma1 e (win.getD 14 0) + win.getD 9 0 + sigma0 e (win.getD 1 0) + win.getD 0 0
    windowRounds e n (t + 1) (win.drop 1 ++ [wt]) (round e t s wt)

/-- R128, R155: computing W in a 16-word window, just before the round that uses it, gives the compression of R150. -/
def Obligations.WindowedScheduleIsEquivalent : Prop :=
  (∀ (h : Vector (BitVec 32) 8) (m : List Byte), compress engine32 h m =
    addWorking h (windowRounds engine32 48 16 (blockWords 32 m)
      (runRounds engine32 (blockWords 32 m) 16 (Working.ofHash h)))) ∧
  ∀ (h : Vector (BitVec 64) 8) (m : List Byte), compress engine64 h m =
    addWorking h (windowRounds engine64 64 16 (blockWords 64 m)
      (runRounds engine64 (blockWords 64 m) 16 (Working.ofHash h)))
end

