-- ==== Sys2Proof/Laws/Bytes.lean ====
section
/-! SUPPORT. Big-endian numbers, one byte at a time from the least significant end, and the lanes of din. -/

namespace Sys2Proof.Machine

@[simp] theorem natOfBytes_nil : natOfBytes [] = 0 := rfl

/-- One more byte at the end shifts the number up by a byte. -/
theorem natOfBytes_snoc (l : List Byte) (x : Byte) : natOfBytes (l ++ [x]) = 256 * natOfBytes l + x.toNat := by
  simp [natOfBytes]

/-- The number of k bytes is below 2^(8k). -/
theorem natOfBytes_lt (s : List Byte) : natOfBytes s < 2 ^ (8 * s.length) := by
  induction s using List.reverseRecOn with
  | nil => simp
  | append_singleton l x ih =>
    have := x.isLt
    rw [natOfBytes_snoc, List.length_append, List.length_singleton, Nat.mul_add, pow_add]
    omega

/-- The last of k + 1 bytes is the number's low byte, and the others are the bytes of the rest. -/
theorem bytesBE_succ (x k : Nat) : bytesBE x (k + 1) = bytesBE (x / 256) k ++ [BitVec.ofNat 8 x] := by
  simp only [bytesBE, List.range_succ, List.map_append]
  congr 1
  · apply List.map_congr_left
    intro j hj
    have := List.mem_range.1 hj
    rw [Nat.shiftRight_eq_div_pow, Nat.shiftRight_eq_div_pow, Nat.div_div_eq_div_mul, show (256 : Nat) = 2 ^ 8 from rfl,
      ← pow_add]
    congr 3
    omega
  · simp

/-- The bytes of a command are as many as n says, and byte j is lane j. -/
theorem dinBytes_getElem? (n : BitVec 4) (din : BitVec 64) (j : Nat) :
    (dinBytes n din)[j]? = if j < n.toNat then some (dinLane din j) else none := by
  by_cases h : j < n.toNat
  · rw [if_pos h, dinBytes, List.getElem?_map, List.getElem?_range h, Option.map_some]
  · rw [if_neg h, List.getElem?_eq_none (by simpa [dinBytes] using h)]

end Sys2Proof.Machine
end

