-- ==== Sys2Proof/Laws/Decode.lean ====
section
/-! SUPPORT. When the decoder answers each command, the word of each command put together from its fields, and how
the opcode map's masks read as fields. -/

namespace Sys2Proof

/-- The codes and the variants are in bijection. -/
@[simp] theorem ofCode_code (v : Variant) : Variant.ofCode v.code = v := by cases v <;> rfl

@[simp] theorem code_ofCode (c : BitVec 2) : (Variant.ofCode c).code = c := by
  revert c; decide

theorem decode_eq_init_iff (c : Command) (v : Variant) :
    decode c = .instr (.init v) ↔
      opField c.cmd = 1 ∧ c.cmd.extractLsb' 6 26 = 0 ∧ v = Variant.ofCode (vField c.cmd) := by
  constructor
  · intro h
    unfold decode at h
    split_ifs at h with h1 h2 <;> cases h
    exact ⟨h1, h2, rfl⟩
  · rintro ⟨h1, h2, rfl⟩
    simp only [decode, h1, h2, if_true]

theorem decode_eq_update_iff (c : Command) (n : BitVec 4) (din : BitVec 64) :
    decode c = .instr (.update n din) ↔
      opField c.cmd = 2 ∧ c.cmd.extractLsb' 12 20 = 0 ∧ c.cmd.extractLsb' 4 4 = 0 ∧
        (nField c.cmd).toNat ≤ 8 ∧ n = nField c.cmd ∧ din = c.din := by
  constructor
  · intro h
    unfold decode at h
    split_ifs at h with h1 h2 h3 h4 h5 <;> cases h
    exact ⟨h3, h4.1, h4.2, h5, rfl, rfl⟩
  · rintro ⟨h1, h2, h3, h4, rfl, rfl⟩
    have h0 : ¬((2 : BitVec 4) = 1) := by decide
    simp only [decode, h1, h2, h3, h4, h0, and_self, if_true, if_false]

theorem decode_eq_finalize_iff (c : Command) : decode c = .instr .finalize ↔ c.cmd = 3 := by
  constructor
  · intro h
    unfold decode at h
    split_ifs at h <;> first | assumption | cases h
  · intro h
    simp [decode, opField, h]

/-- A word with op = 1 and bits 31..6 zero is put together from its v field. -/
theorem init_word_of_fields {cmd : BitVec 32} (hop : cmd.extractLsb' 0 4 = 1) (hr : cmd.extractLsb' 6 26 = 0) :
    cmd = (0#26 ++ cmd.extractLsb' 4 2 ++ 1#4 : BitVec 32) := by
  have h0 : cmd = (cmd.extractLsb' 6 26 ++ cmd.extractLsb' 4 2 ++ cmd.extractLsb' 0 4 : BitVec 32) := by
    rw [BitVec.extractLsb'_append_extractLsb'_eq_extractLsb' (by rfl),
      BitVec.extractLsb'_append_extractLsb'_eq_extractLsb' (by rfl)]
    simp
  rw [hop, hr] at h0
  exact h0

/-- A word with op = 2 and bits 31..12 and 7..4 zero is put together from its n field. -/
theorem update_word_of_fields {cmd : BitVec 32} (hop : cmd.extractLsb' 0 4 = 2)
    (hh : cmd.extractLsb' 12 20 = 0) (hl : cmd.extractLsb' 4 4 = 0) :
    cmd = (0#20 ++ cmd.extractLsb' 8 4 ++ 0#4 ++ 2#4 : BitVec 32) := by
  have h0 : cmd = (cmd.extractLsb' 12 20 ++ cmd.extractLsb' 8 4 ++ cmd.extractLsb' 4 4
      ++ cmd.extractLsb' 0 4 : BitVec 32) := by
    rw [BitVec.extractLsb'_append_extractLsb'_eq_extractLsb' (by rfl),
      BitVec.extractLsb'_append_extractLsb'_eq_extractLsb' (by rfl),
      BitVec.extractLsb'_append_extractLsb'_eq_extractLsb' (by rfl)]
    simp
  rw [hop, hh, hl] at h0
  exact h0

/-- A word with op = 3 and bits 31..4 zero is 3. -/
theorem finalize_word_of_fields {cmd : BitVec 32} (hop : cmd.extractLsb' 0 4 = 3)
    (hr : cmd.extractLsb' 4 28 = 0) : cmd = 3 := by
  have h0 : cmd = (cmd.extractLsb' 4 28 ++ cmd.extractLsb' 0 4 : BitVec 32) := by
    rw [BitVec.extractLsb'_append_extractLsb'_eq_extractLsb' (by rfl)]
    simp
  rw [hop, hr] at h0
  exact h0

/-- The fields of the three encoded words. -/
theorem init_word_fields (v : BitVec 2) :
    let cmd : BitVec 32 := 0#26 ++ v ++ 1#4
    opField cmd = 1 ∧ vField cmd = v ∧ cmd.extractLsb' 6 26 = 0 := by revert v; decide

theorem update_word_fields (n : BitVec 4) :
    let cmd : BitVec 32 := 0#20 ++ n ++ 0#4 ++ 2#4
    opField cmd = 2 ∧ nField cmd = n ∧ cmd.extractLsb' 12 20 = 0 ∧ cmd.extractLsb' 4 4 = 0 := by
  revert n; decide

end Sys2Proof
end

