-- ==== Sys2Proof/Laws/Padding.lean ====
section
/-! SUPPORT. Lengths of the padding and of byte conversions, and how a byte sequence is cut into blocks. -/

namespace Sys2Proof.Machine

@[simp] theorem bytesBE_length (x k : Nat) : (bytesBE x k).length = k := by simp [bytesBE]

@[simp] theorem chunks_length (b k : Nat) (l : List Byte) : (chunks b k l).length = k := by
  induction k generalizing l with
  | zero => rfl
  | succ k ih => simp [chunks, ih]

/-- Cutting blocks from the front of a sequence does not look past them. -/
theorem chunks_append_of_le (b : Nat) : ∀ (k : Nat) (l x : List Byte), k * b ≤ l.length →
    chunks b k (l ++ x) = chunks b k l
  | 0, _, _, _ => rfl
  | k + 1, l, x, h => by
    have hb : b ≤ l.length := by
      rw [Nat.succ_mul] at h; omega
    have hk : k * b ≤ (l.drop b).length := by
      simp only [List.length_drop]; rw [Nat.succ_mul] at h; omega
    simp only [chunks]
    rw [List.take_append_of_le_length hb, List.drop_append_of_le_length hb, chunks_append_of_le b k _ _ hk]

/-- Cutting j + k blocks is cutting j, then k from what is left. -/
theorem chunks_add (b k : Nat) : ∀ (j : Nat) (l : List Byte),
    chunks b (j + k) l = chunks b j l ++ chunks b k (l.drop (j * b))
  | 0, l => by simp [chunks]
  | j + 1, l => by
    rw [Nat.add_right_comm, chunks, chunks_add b k j, chunks, List.cons_append, List.drop_drop, Nat.succ_mul,
      Nat.add_comm b]

/-- Blocks cut from a long enough sequence give its front back. -/
theorem chunks_flatten (b : Nat) : ∀ (k : Nat) (l : List Byte), (chunks b k l).flatten = l.take (k * b)
  | 0, l => by simp [chunks]
  | k + 1, l => by
    rw [chunks, List.flatten_cons, chunks_flatten b k, Nat.succ_mul, Nat.add_comm, List.take_add]

/-- Every block cut from a long enough sequence has `b` bytes. -/
theorem chunks_block_length (b : Nat) : ∀ (k : Nat) (l : List Byte), k * b ≤ l.length →
    ∀ m ∈ chunks b k l, m.length = b
  | 0, _, _, _, hm => by simp [chunks] at hm
  | k + 1, l, h, m, hm => by
    rw [Nat.succ_mul] at h
    rcases List.mem_cons.1 hm with rfl | hm
    · simp only [List.length_take]; omega
    · exact chunks_block_length b k (l.drop b) (by simp only [List.length_drop]; omega) m hm

theorem blockBytes_pos (fam : Fam) : 0 < blockBytes fam := by cases fam <;> decide

/-- The padded remainder has k*B bytes (R103), for a remainder shorter than a block. -/
theorem padBytes_length {fam : Fam} {rem : List Byte} (h : rem.length < blockBytes fam) (len : Nat) :
    (padBytes fam rem len).length = padBlockCount fam rem.length * blockBytes fam := by
  simp only [padBytes, List.length_append, List.length_replicate, bytesBE_length, List.length_singleton]
  by_cases hk : rem.length + 1 + lengthBytes fam ≤ blockBytes fam
  · rw [padBlockCount, if_pos hk]
    cases fam <;> simp only [lengthBytes, blockBytes] at h hk ⊢ <;> omega
  · rw [padBlockCount, if_neg hk]
    cases fam <;> simp only [lengthBytes, blockBytes] at h hk ⊢ <;> omega

end Sys2Proof.Machine
end

