-- ==== Sys2Proof/Laws/State.lean ====
section
/-! SUPPORT. One lemma per field per update of the state: what each named operation leaves in each field. -/

namespace Sys2Proof.Machine

@[simp] theorem accept_sess (s : State) :
    (accept s).sess = s.sess := rfl
@[simp] theorem accept_var (s : State) :
    (accept s).var = s.var := rfl
@[simp] theorem accept_h (s : State) :
    (accept s).h = s.h := rfl
@[simp] theorem accept_buf (s : State) :
    (accept s).buf = s.buf := rfl
@[simp] theorem accept_bufcnt (s : State) :
    (accept s).bufcnt = s.bufcnt := rfl
@[simp] theorem accept_len (s : State) :
    (accept s).len = s.len := rfl
@[simp] theorem accept_digest (s : State) :
    (accept s).digest = s.digest := rfl
@[simp] theorem accept_dlen (s : State) :
    (accept s).dlen = s.dlen := rfl
@[simp] theorem accept_dvalid (s : State) :
    (accept s).dvalid = s.dvalid := rfl
@[simp] theorem accept_lasterr (s : State) :
    (accept s).lasterr = .ok := rfl
@[simp] theorem accept_sticky (s : State) :
    (accept s).sticky = s.sticky := rfl
@[simp] theorem accept_inputs (s : State) :
    (accept s).inputs = s.inputs := rfl

@[simp] theorem reject_sess (code : ErrCode) (s : State) :
    (reject code s).sess = s.sess := rfl
@[simp] theorem reject_var (code : ErrCode) (s : State) :
    (reject code s).var = s.var := rfl
@[simp] theorem reject_h (code : ErrCode) (s : State) :
    (reject code s).h = s.h := rfl
@[simp] theorem reject_buf (code : ErrCode) (s : State) :
    (reject code s).buf = s.buf := rfl
@[simp] theorem reject_bufcnt (code : ErrCode) (s : State) :
    (reject code s).bufcnt = s.bufcnt := rfl
@[simp] theorem reject_len (code : ErrCode) (s : State) :
    (reject code s).len = s.len := rfl
@[simp] theorem reject_digest (code : ErrCode) (s : State) :
    (reject code s).digest = s.digest := rfl
@[simp] theorem reject_dlen (code : ErrCode) (s : State) :
    (reject code s).dlen = s.dlen := rfl
@[simp] theorem reject_dvalid (code : ErrCode) (s : State) :
    (reject code s).dvalid = s.dvalid := rfl
@[simp] theorem reject_lasterr (code : ErrCode) (s : State) :
    (reject code s).lasterr = code := rfl
@[simp] theorem reject_sticky (code : ErrCode) (s : State) :
    (reject code s).sticky = true := rfl
@[simp] theorem reject_inputs (code : ErrCode) (s : State) :
    (reject code s).inputs = s.inputs := rfl

@[simp] theorem putByte_sess (b : Byte) (s : State) :
    (putByte b s).sess = s.sess := rfl
@[simp] theorem putByte_var (b : Byte) (s : State) :
    (putByte b s).var = s.var := rfl
@[simp] theorem putByte_h (b : Byte) (s : State) :
    (putByte b s).h = s.h := rfl
@[simp] theorem putByte_buf (b : Byte) (s : State) :
    (putByte b s).buf = s.buf.set s.bufcnt.toNat b (by have := s.bufcnt.isLt; omega) := rfl
@[simp] theorem putByte_bufcnt (b : Byte) (s : State) :
    (putByte b s).bufcnt = s.bufcnt := rfl
@[simp] theorem putByte_len (b : Byte) (s : State) :
    (putByte b s).len = s.len := rfl
@[simp] theorem putByte_digest (b : Byte) (s : State) :
    (putByte b s).digest = s.digest := rfl
@[simp] theorem putByte_dlen (b : Byte) (s : State) :
    (putByte b s).dlen = s.dlen := rfl
@[simp] theorem putByte_dvalid (b : Byte) (s : State) :
    (putByte b s).dvalid = s.dvalid := rfl
@[simp] theorem putByte_lasterr (b : Byte) (s : State) :
    (putByte b s).lasterr = s.lasterr := rfl
@[simp] theorem putByte_sticky (b : Byte) (s : State) :
    (putByte b s).sticky = s.sticky := rfl
@[simp] theorem putByte_inputs (b : Byte) (s : State) :
    (putByte b s).inputs = s.inputs := rfl

@[simp] theorem compressBlock_sess (m : List Byte) (s : State) :
    (compressBlock m s).sess = s.sess := rfl
@[simp] theorem compressBlock_var (m : List Byte) (s : State) :
    (compressBlock m s).var = s.var := rfl
@[simp] theorem compressBlock_h (m : List Byte) (s : State) :
    (compressBlock m s).h = compressH (famOf s.var) s.h m := rfl
@[simp] theorem compressBlock_buf (m : List Byte) (s : State) :
    (compressBlock m s).buf = s.buf := rfl
@[simp] theorem compressBlock_bufcnt (m : List Byte) (s : State) :
    (compressBlock m s).bufcnt = s.bufcnt := rfl
@[simp] theorem compressBlock_len (m : List Byte) (s : State) :
    (compressBlock m s).len = s.len := rfl
@[simp] theorem compressBlock_digest (m : List Byte) (s : State) :
    (compressBlock m s).digest = s.digest := rfl
@[simp] theorem compressBlock_dlen (m : List Byte) (s : State) :
    (compressBlock m s).dlen = s.dlen := rfl
@[simp] theorem compressBlock_dvalid (m : List Byte) (s : State) :
    (compressBlock m s).dvalid = s.dvalid := rfl
@[simp] theorem compressBlock_lasterr (m : List Byte) (s : State) :
    (compressBlock m s).lasterr = s.lasterr := rfl
@[simp] theorem compressBlock_sticky (m : List Byte) (s : State) :
    (compressBlock m s).sticky = s.sticky := rfl
@[simp] theorem compressBlock_inputs (m : List Byte) (s : State) :
    (compressBlock m s).inputs = s.inputs := rfl

@[simp] theorem countBytes_sess (n : Nat) (s : State) :
    (countBytes n s).sess = s.sess := rfl
@[simp] theorem countBytes_var (n : Nat) (s : State) :
    (countBytes n s).var = s.var := rfl
@[simp] theorem countBytes_h (n : Nat) (s : State) :
    (countBytes n s).h = s.h := rfl
@[simp] theorem countBytes_buf (n : Nat) (s : State) :
    (countBytes n s).buf = s.buf := rfl
@[simp] theorem countBytes_bufcnt (n : Nat) (s : State) :
    (countBytes n s).bufcnt = s.bufcnt := rfl
@[simp] theorem countBytes_len (n : Nat) (s : State) :
    (countBytes n s).len = BitVec.ofNat 128 (s.len.toNat + 8 * n) := rfl
@[simp] theorem countBytes_digest (n : Nat) (s : State) :
    (countBytes n s).digest = s.digest := rfl
@[simp] theorem countBytes_dlen (n : Nat) (s : State) :
    (countBytes n s).dlen = s.dlen := rfl
@[simp] theorem countBytes_dvalid (n : Nat) (s : State) :
    (countBytes n s).dvalid = s.dvalid := rfl
@[simp] theorem countBytes_lasterr (n : Nat) (s : State) :
    (countBytes n s).lasterr = s.lasterr := rfl
@[simp] theorem countBytes_sticky (n : Nat) (s : State) :
    (countBytes n s).sticky = s.sticky := rfl
@[simp] theorem countBytes_inputs (n : Nat) (s : State) :
    (countBytes n s).inputs = s.inputs := rfl

@[simp] theorem compressPadding_sess (s : State) :
    (compressPadding s).sess = s.sess := by
  simp only [compressPadding]
@[simp] theorem compressPadding_var (s : State) :
    (compressPadding s).var = s.var := by
  simp only [compressPadding]
@[simp] theorem compressPadding_h (s : State) :
    (compressPadding s).h = compressBlocks (famOf s.var) s.h (pad (famOf s.var) (remainder s) s.len.toNat) := by
  simp only [compressPadding]
@[simp] theorem compressPadding_buf (s : State) :
    (compressPadding s).buf = s.buf := by
  simp only [compressPadding]
@[simp] theorem compressPadding_bufcnt (s : State) :
    (compressPadding s).bufcnt = s.bufcnt := by
  simp only [compressPadding]
@[simp] theorem compressPadding_len (s : State) :
    (compressPadding s).len = s.len := by
  simp only [compressPadding]
@[simp] theorem compressPadding_digest (s : State) :
    (compressPadding s).digest = s.digest := by
  simp only [compressPadding]
@[simp] theorem compressPadding_dlen (s : State) :
    (compressPadding s).dlen = s.dlen := by
  simp only [compressPadding]
@[simp] theorem compressPadding_dvalid (s : State) :
    (compressPadding s).dvalid = s.dvalid := by
  simp only [compressPadding]
@[simp] theorem compressPadding_lasterr (s : State) :
    (compressPadding s).lasterr = s.lasterr := by
  simp only [compressPadding]
@[simp] theorem compressPadding_sticky (s : State) :
    (compressPadding s).sticky = s.sticky := by
  simp only [compressPadding]
@[simp] theorem compressPadding_inputs (s : State) :
    (compressPadding s).inputs = s.inputs := by
  simp only [compressPadding]

@[simp] theorem writeDigest_sess (s : State) :
    (writeDigest s).sess = s.sess := by
  simp only [writeDigest]
@[simp] theorem writeDigest_var (s : State) :
    (writeDigest s).var = s.var := by
  simp only [writeDigest]
@[simp] theorem writeDigest_h (s : State) :
    (writeDigest s).h = s.h := by
  simp only [writeDigest]
@[simp] theorem writeDigest_buf (s : State) :
    (writeDigest s).buf = s.buf := by
  simp only [writeDigest]
@[simp] theorem writeDigest_bufcnt (s : State) :
    (writeDigest s).bufcnt = s.bufcnt := by
  simp only [writeDigest]
@[simp] theorem writeDigest_len (s : State) :
    (writeDigest s).len = s.len := by
  simp only [writeDigest]
@[simp] theorem writeDigest_digest (s : State) :
    (writeDigest s).digest = digestRegister (serialize s.var s.h) := by
  simp only [writeDigest]
@[simp] theorem writeDigest_dlen (s : State) :
    (writeDigest s).dlen = BitVec.ofNat 7 (serialize s.var s.h).length := by
  simp only [writeDigest]
@[simp] theorem writeDigest_dvalid (s : State) :
    (writeDigest s).dvalid = true := by
  simp only [writeDigest]
@[simp] theorem writeDigest_lasterr (s : State) :
    (writeDigest s).lasterr = s.lasterr := by
  simp only [writeDigest]
@[simp] theorem writeDigest_sticky (s : State) :
    (writeDigest s).sticky = s.sticky := by
  simp only [writeDigest]
@[simp] theorem writeDigest_inputs (s : State) :
    (writeDigest s).inputs = s.inputs := by
  simp only [writeDigest]

@[simp] theorem resetBlock_sess (s : State) :
    (resetBlock s).sess = .idle := rfl
@[simp] theorem resetBlock_var (s : State) :
    (resetBlock s).var = .sha224 := rfl
@[simp] theorem resetBlock_h (s : State) :
    (resetBlock s).h = Vector.replicate 8 0 := rfl
@[simp] theorem resetBlock_buf (s : State) :
    (resetBlock s).buf = Vector.replicate 128 0 := rfl
@[simp] theorem resetBlock_bufcnt (s : State) :
    (resetBlock s).bufcnt = 0 := rfl
@[simp] theorem resetBlock_len (s : State) :
    (resetBlock s).len = 0 := rfl
@[simp] theorem resetBlock_digest (s : State) :
    (resetBlock s).digest = Vector.replicate 64 0 := rfl
@[simp] theorem resetBlock_dlen (s : State) :
    (resetBlock s).dlen = 0 := rfl
@[simp] theorem resetBlock_dvalid (s : State) :
    (resetBlock s).dvalid = false := rfl
@[simp] theorem resetBlock_lasterr (s : State) :
    (resetBlock s).lasterr = .ok := rfl
@[simp] theorem resetBlock_sticky (s : State) :
    (resetBlock s).sticky = false := rfl
@[simp] theorem resetBlock_inputs (s : State) :
    (resetBlock s).inputs = s.inputs := rfl

end Sys2Proof.Machine
end

