-- ==== Sys2Proof/Laws/Ops.lean ====
section
/-! SUPPORT. What the shared operations of the commands do: the byte loop of UPDATE, in one byte and over a list,
and the session checks. -/

namespace Sys2Proof.Machine

-- ==== The session checks ====

theorem sessionError_eq_none_iff (x : Sess) : sessionError x = none ↔ x = .empty ∨ x = .accum := by
  cases x <;> simp [sessionError]

-- ==== One byte ====

@[simp] theorem absorbByte_sess (s : State) (b : Byte) : (absorbByte s b).sess = s.sess := by
  unfold absorbByte; split_ifs <;> simp

@[simp] theorem absorbByte_var (s : State) (b : Byte) : (absorbByte s b).var = s.var := by
  unfold absorbByte; split_ifs <;> simp

@[simp] theorem absorbByte_len (s : State) (b : Byte) : (absorbByte s b).len = s.len := by
  unfold absorbByte; split_ifs <;> simp

@[simp] theorem absorbByte_digest (s : State) (b : Byte) : (absorbByte s b).digest = s.digest := by
  unfold absorbByte; split_ifs <;> simp

@[simp] theorem absorbByte_dlen (s : State) (b : Byte) : (absorbByte s b).dlen = s.dlen := by
  unfold absorbByte; split_ifs <;> simp

@[simp] theorem absorbByte_dvalid (s : State) (b : Byte) : (absorbByte s b).dvalid = s.dvalid := by
  unfold absorbByte; split_ifs <;> simp

@[simp] theorem absorbByte_lasterr (s : State) (b : Byte) : (absorbByte s b).lasterr = s.lasterr := by
  unfold absorbByte; split_ifs <;> simp

@[simp] theorem absorbByte_sticky (s : State) (b : Byte) : (absorbByte s b).sticky = s.sticky := by
  unfold absorbByte; split_ifs <;> simp

@[simp] theorem absorbByte_inputs (s : State) (b : Byte) : (absorbByte s b).inputs = s.inputs := by
  unfold absorbByte; split_ifs <;> simp

/-- The byte lands at BUF[BUFCNT] and nowhere else, whether or not it completes a block. -/
theorem absorbByte_buf (s : State) (b : Byte) :
    (absorbByte s b).buf = s.buf.set s.bufcnt.toNat b (by have := s.bufcnt.isLt; omega) := by
  unfold absorbByte; split_ifs <;> simp

/-- BUFCNT after one byte, where the count that completes a block reads as 0 again. -/
theorem absorbByte_bufcnt {s : State} (b : Byte) (h : s.bufcnt.toNat < blockBytes (famOf s.var)) :
    (absorbByte s b).bufcnt.toNat =
      if s.bufcnt.toNat + 1 = blockBytes (famOf s.var) then 0 else s.bufcnt.toNat + 1 := by
  have hB : blockBytes (famOf s.var) ≤ 128 := by cases famOf s.var <;> decide
  unfold absorbByte
  split_ifs with h1
  · rfl
  · simp only [BitVec.toNat_ofNat]; omega

/-- The bytes of BUF below n, with one more written at n. -/
theorem bufPrefix_putByte (s : State) (b : Byte) :
    bufPrefix (s.bufcnt.toNat + 1) (putByte b s) = remainder s ++ [b] := by
  have hlt : s.bufcnt.toNat < 128 := by have := s.bufcnt.isLt; omega
  simp only [bufPrefix, remainder, putByte_buf, Vector.toList_set]
  rw [List.take_add_one, List.take_set_of_le (le_refl _)]
  simp [hlt]

/-- A byte that does not complete the block is buffered and leaves H alone (45_commands.md R186). -/
theorem absorbByte_within {s : State} (b : Byte) (h : s.bufcnt.toNat + 1 < blockBytes (famOf s.var)) :
    remainder (absorbByte s b) = remainder s ++ [b] ∧ (absorbByte s b).h = s.h ∧
      (absorbByte s b).bufcnt.toNat = s.bufcnt.toNat + 1 := by
  have hc := absorbByte_bufcnt b (Nat.lt_of_succ_lt h)
  rw [if_neg (Nat.ne_of_lt h)] at hc
  refine ⟨?_, ?_, hc⟩
  · rw [← bufPrefix_putByte, remainder, hc, bufPrefix, bufPrefix, absorbByte_buf, putByte_buf]
  · unfold absorbByte; rw [if_neg (Nat.ne_of_lt h)]; simp

/-- A byte that completes the block has the block compressed at once and empties the buffer (R186). -/
theorem absorbByte_completes {s : State} (b : Byte) (h : s.bufcnt.toNat + 1 = blockBytes (famOf s.var)) :
    remainder (absorbByte s b) = [] ∧
      (absorbByte s b).h = compressH (famOf s.var) s.h (remainder s ++ [b]) ∧
      (absorbByte s b).bufcnt = 0 := by
  have hc : (absorbByte s b).bufcnt = 0 := by unfold absorbByte; rw [if_pos h]
  refine ⟨?_, ?_, hc⟩
  · rw [remainder, hc]; rfl
  · unfold absorbByte
    rw [if_pos h, ← bufPrefix_putByte, ← h]
    simp

-- ==== A list of bytes ====

@[simp] theorem absorb_nil (s : State) : absorb [] s = s := rfl

theorem absorb_cons (b : Byte) (bs : List Byte) (s : State) : absorb (b :: bs) s = absorb bs (absorbByte s b) := rfl

/-- Absorbing is a loop over bytes, so how they are grouped does not matter. -/
theorem absorb_append (bs cs : List Byte) (s : State) : absorb (bs ++ cs) s = absorb cs (absorb bs s) :=
  List.foldl_append

@[simp] theorem absorb_sess (bs : List Byte) (s : State) : (absorb bs s).sess = s.sess := by
  induction bs generalizing s with
  | nil => rfl
  | cons b bs ih => rw [absorb_cons, ih, absorbByte_sess]

@[simp] theorem absorb_var (bs : List Byte) (s : State) : (absorb bs s).var = s.var := by
  induction bs generalizing s with
  | nil => rfl
  | cons b bs ih => rw [absorb_cons, ih, absorbByte_var]

@[simp] theorem absorb_len (bs : List Byte) (s : State) : (absorb bs s).len = s.len := by
  induction bs generalizing s with
  | nil => rfl
  | cons b bs ih => rw [absorb_cons, ih, absorbByte_len]

@[simp] theorem absorb_digest (bs : List Byte) (s : State) : (absorb bs s).digest = s.digest := by
  induction bs generalizing s with
  | nil => rfl
  | cons b bs ih => rw [absorb_cons, ih, absorbByte_digest]

@[simp] theorem absorb_dlen (bs : List Byte) (s : State) : (absorb bs s).dlen = s.dlen := by
  induction bs generalizing s with
  | nil => rfl
  | cons b bs ih => rw [absorb_cons, ih, absorbByte_dlen]

@[simp] theorem absorb_dvalid (bs : List Byte) (s : State) : (absorb bs s).dvalid = s.dvalid := by
  induction bs generalizing s with
  | nil => rfl
  | cons b bs ih => rw [absorb_cons, ih, absorbByte_dvalid]

@[simp] theorem absorb_lasterr (bs : List Byte) (s : State) : (absorb bs s).lasterr = s.lasterr := by
  induction bs generalizing s with
  | nil => rfl
  | cons b bs ih => rw [absorb_cons, ih, absorbByte_lasterr]

@[simp] theorem absorb_sticky (bs : List Byte) (s : State) : (absorb bs s).sticky = s.sticky := by
  induction bs generalizing s with
  | nil => rfl
  | cons b bs ih => rw [absorb_cons, ih, absorbByte_sticky]

@[simp] theorem absorb_inputs (bs : List Byte) (s : State) : (absorb bs s).inputs = s.inputs := by
  induction bs generalizing s with
  | nil => rfl
  | cons b bs ih => rw [absorb_cons, ih, absorbByte_inputs]

/-- BUFCNT counts the bytes modulo the block size. -/
theorem absorb_bufcnt (bs : List Byte) (s : State) (h : s.bufcnt.toNat < blockBytes (famOf s.var)) :
    (absorb bs s).bufcnt.toNat = (s.bufcnt.toNat + bs.length) % blockBytes (famOf s.var) := by
  induction bs generalizing s with
  | nil => exact (Nat.mod_eq_of_lt h).symm
  | cons b bs ih =>
    have hc := absorbByte_bufcnt b h
    have hB := blockBytes_pos (famOf s.var)
    rw [absorb_cons, ih, hc, absorbByte_var, List.length_cons]
    · split_ifs with h1
      · rw [show s.bufcnt.toNat + (bs.length + 1) = bs.length + blockBytes (famOf s.var) by omega,
          Nat.add_mod_right, Nat.zero_add]
      · rw [show s.bufcnt.toNat + 1 + bs.length = s.bufcnt.toNat + (bs.length + 1) by omega]
    · rw [hc, absorbByte_var]; split_ifs <;> omega

/-- While no block is completed, bytes are only buffered. -/
theorem absorb_within (bs : List Byte) (s : State) (h : s.bufcnt.toNat + bs.length < blockBytes (famOf s.var)) :
    remainder (absorb bs s) = remainder s ++ bs ∧ (absorb bs s).h = s.h ∧
      (absorb bs s).bufcnt.toNat = s.bufcnt.toNat + bs.length := by
  induction bs generalizing s with
  | nil => simp
  | cons b bs ih =>
    simp only [List.length_cons] at h
    obtain ⟨h1, h2, h3⟩ := absorbByte_within b (s := s) (by omega)
    obtain ⟨k1, k2, k3⟩ := ih (absorbByte s b) (by rw [h3, absorbByte_var]; omega)
    refine ⟨?_, ?_, ?_⟩
    · rw [absorb_cons, k1, h1, List.append_assoc]; rfl
    · rw [absorb_cons, k2, h2]
    · rw [absorb_cons, k3, h3, List.length_cons]; omega

/-- Bytes that exactly complete a block have it compressed once. -/
theorem absorb_completes (bs : List Byte) (s : State) (hne : bs ≠ [])
    (h : s.bufcnt.toNat + bs.length = blockBytes (famOf s.var)) :
    remainder (absorb bs s) = [] ∧ (absorb bs s).h = compressH (famOf s.var) s.h (remainder s ++ bs) ∧
      (absorb bs s).bufcnt = 0 := by
  obtain ⟨cs, b, rfl⟩ : ∃ cs b, bs = cs ++ [b] := ⟨bs.dropLast, bs.getLast hne, (List.dropLast_append_getLast hne).symm⟩
  simp only [List.length_append, List.length_singleton] at h
  obtain ⟨k1, k2, k3⟩ := absorb_within cs s (by omega)
  rw [absorb_append, absorb_cons, absorb_nil]
  have hc := absorbByte_completes b (s := absorb cs s) (by rw [k3, absorb_var]; omega)
  rw [k1, k2, absorb_var] at hc
  rwa [List.append_assoc] at hc

end Sys2Proof.Machine
end

