-- ==== Sys2Proof/Laws/PerInstr.lean ====
section
/-! SUPPORT. Statements made per constructor of `Instr`, about the instruction as syntax. -/

/-- The encoding of a well-formed command matches its row of the opcode map (30_encoding.md R63). -/
def Sys2Proof.Laws.MatchesRow.Statement (i : Sys2Proof.Instr) : Prop :=
  i.WellFormed → i.row.Matches (Sys2Proof.encode i).cmd = true

theorem Sys2Proof.Laws.MatchesRow.init (v : Sys2Proof.Variant) :
    Sys2Proof.Laws.MatchesRow.Statement (.init v) := by
  intro _
  cases v <;> decide

theorem Sys2Proof.Laws.MatchesRow.update (n : BitVec 4) (din : BitVec 64) :
    Sys2Proof.Laws.MatchesRow.Statement (.update n din) := by
  intro _
  have row : ∀ m : BitVec 4, Sys2Proof.updateRow.Matches (0#20 ++ m ++ 0#4 ++ 2#4) = true := by decide
  exact row n

theorem Sys2Proof.Laws.MatchesRow.finalize : Sys2Proof.Laws.MatchesRow.Statement .finalize := by
  intro _
  decide
end

