-- ==== Sys2Proof/Laws/Schedule.lean ====
section
/-! SUPPORT. How many words a ROM's rows hold, what extending a schedule keeps and adds, that rounds read only the
words they are given, and the final addition word by word. -/

namespace Sys2Proof.Machine

variable {w : Nat}

/-- Four words to a row. -/
@[simp] theorem romWords_length (rows : List (BitVec (4 * w))) : (romWords w rows).length = 4 * rows.length := by
  induction rows with
  | nil => rfl
  | cons row rows ih =>
    simp only [romWords, List.length_cons, ih]
    omega

/-- Word i of an initial vector is its place in the row. -/
@[simp] theorem ivWords_getElem (row : BitVec (8 * w)) (i : Nat) (h : i < 8) :
    (ivWords w row)[i] = row.extractLsb' ((7 - i) * w) w := by
  simp [ivWords]

/-- The final addition is word by word. -/
@[simp] theorem addWorking_getElem (h : Vector (Word w) 8) (s : Working w) (i : Nat) (hi : i < 8) :
    (addWorking h s)[i] = h[i] + s.toVector[i] := by
  simp [addWorking]

/-- The registers loaded from H are H again. -/
@[simp] theorem toVector_ofHash (h : Vector (Word w) 8) : (Working.ofHash h).toVector = h := by
  ext i hi
  rcases i with _ | _ | _ | _ | _ | _ | _ | _ | i <;> first | rfl | omega

@[simp] theorem blockWords_length (m : List Byte) : (blockWords w m).length = 16 := by simp [blockWords]

/-- Every extension adds one word at a time. -/
@[simp] theorem extendSchedule_length (e : Engine w) :
    ∀ (n : Nat) (ws : List (Word w)), (extendSchedule e n ws).length = ws.length + n
  | 0, ws => rfl
  | n + 1, ws => by
    rw [extendSchedule, extendSchedule_length e n, List.length_append, List.length_singleton]
    omega

/-- The words already there stay. -/
theorem extendSchedule_getElem?_of_lt (e : Engine w) :
    ∀ (n : Nat) (ws : List (Word w)) (t : Nat), t < ws.length → (extendSchedule e n ws)[t]? = ws[t]?
  | 0, _, _, _ => rfl
  | n + 1, ws, t, h => by
    rw [extendSchedule, extendSchedule_getElem?_of_lt e n _ _ (by rw [List.length_append]; omega),
      List.getElem?_append_left h]

/-- The first word added is the next word. -/
theorem extendSchedule_getElem?_length (e : Engine w) (n : Nat) (ws : List (Word w)) :
    (extendSchedule e (n + 1) ws)[ws.length]? = some (nextWord e ws) := by
  rw [extendSchedule, extendSchedule_getElem?_of_lt e n _ _ (by simp)]
  simp

/-- Two schedules that agree on the first n words give the same n rounds. -/
theorem runRounds_congr (e : Engine w) (ws ws' : List (Word w)) (s : Working w) :
    ∀ n, (∀ t, t < n → ws.getD t 0 = ws'.getD t 0) → runRounds e ws n s = runRounds e ws' n s
  | 0, _ => rfl
  | n + 1, h => by
    rw [runRounds, runRounds, runRounds_congr e ws ws' s n fun t ht => h t (by omega), h n (by omega)]

/-- In the 32-bit family only the low halves of H are read, and the result depends on nothing else (R152). -/
theorem compressH_fam32_congr {h h' : Vector (BitVec 64) 8} (m : List Byte)
    (hh : h.map (BitVec.setWidth 32) = h'.map (BitVec.setWidth 32)) :
    compressH .fam32 h m = compressH .fam32 h' m := by
  simp only [compressH, hh]

end Sys2Proof.Machine
end

