-- ==== Sys2Proof/Laws/Step.lean ====
section
/-! SUPPORT. What a command answers, and the one inversion of the step function: everything a step can do. -/

namespace Sys2Proof.Machine

theorem updateError_eq_none_iff (n : BitVec 4) (s : State) :
    updateError n s = none ↔
      n.toNat ≤ 8 ∧ (s.sess = .empty ∨ s.sess = .accum) ∧ s.len.toNat + 8 * n.toNat ≤ maxLen (famOf s.var) := by
  rw [← sessionError_eq_none_iff]
  unfold updateError
  by_cases h1 : 8 < n.toNat
  · rw [if_pos h1]
    simp only [false_iff, reduceCtorEq]
    omega
  · rw [if_neg h1]
    cases sessionError s.sess with
    | none => simp [lengthFits, Nat.le_of_not_lt h1]
    | some code => simp

/-- The next state of an UPDATE that passes its checks. -/
def afterUpdate (n : BitVec 4) (din : BitVec 64) (s : State) : State :=
  accept { countBytes n.toNat (absorb (dinBytes n din) s) with sess := .accum }

/-- The next state of a FINALIZE of an open session. -/
def afterFinalize (s : State) : State :=
  accept { writeDigest (compressPadding s) with bufcnt := 0, sess := .final }

theorem exec_update_accepted {n : BitVec 4} {din : BitVec 64} {s : State} (h : updateError n s = none) :
    exec (.update n din) s = .next (afterUpdate n din s) := by
  simp only [exec, execUpdate, h, afterUpdate]

theorem exec_update_rejected {n : BitVec 4} {din : BitVec 64} {s : State} {code : ErrCode}
    (h : updateError n s = some code) : exec (.update n din) s = .next (reject code s) := by
  simp only [exec, execUpdate, h]

theorem exec_finalize_accepted {s : State} (h : sessionError s.sess = none) :
    exec .finalize s = .next (afterFinalize s) := by
  simp only [exec, execFinalize, h, afterFinalize]

theorem exec_finalize_rejected {s : State} {code : ErrCode} (h : sessionError s.sess = some code) :
    exec .finalize s = .next (reject code s) := by
  simp only [exec, execFinalize, h]

/-- Everything a command can do: INIT is accepted; UPDATE and FINALIZE are accepted or rejected with a code of
their own. -/
theorem exec_cases {i : Instr} {s t : State} (h : exec i s = .next t) :
    (∃ v, i = .init v ∧ execInit v s = .next t) ∨
    (∃ n din, i = .update n din ∧ updateError n s = none ∧ t = afterUpdate n din s) ∨
    (i = .finalize ∧ sessionError s.sess = none ∧ t = afterFinalize s) ∨
    (∃ n din code, i = .update n din ∧ updateError n s = some code ∧ t = reject code s) ∨
    (∃ code, i = .finalize ∧ sessionError s.sess = some code ∧ t = reject code s) := by
  cases i with
  | init v => exact .inl ⟨v, rfl, h⟩
  | update n din =>
    cases hu : updateError n s with
    | none =>
      rw [exec_update_accepted hu] at h
      exact .inr (.inl ⟨n, din, rfl, hu, (Host.Outcome.next.inj h).symm⟩)
    | some code =>
      rw [exec_update_rejected hu] at h
      exact .inr (.inr (.inr (.inl ⟨n, din, code, rfl, hu, (Host.Outcome.next.inj h).symm⟩)))
  | finalize =>
    cases hf : sessionError s.sess with
    | none =>
      rw [exec_finalize_accepted hf] at h
      exact .inr (.inr (.inl ⟨rfl, rfl, (Host.Outcome.next.inj h).symm⟩))
    | some code =>
      rw [exec_finalize_rejected hf] at h
      exact .inr (.inr (.inr (.inr ⟨code, rfl, rfl, (Host.Outcome.next.inj h).symm⟩)))

/-- No rejection is reported with OK. -/
theorem sessionError_ne_ok {x : Sess} {code : ErrCode} (h : sessionError x = some code) : code ≠ .ok := by
  cases x <;> simp_all [sessionError] <;> rintro rfl <;> cases h

theorem updateError_ne_ok {n : BitVec 4} {s : State} {code : ErrCode} (h : updateError n s = some code) :
    code ≠ .ok := by
  unfold updateError at h
  split at h
  · cases h; decide
  · split at h
    · cases h; exact sessionError_ne_ok ‹_›
    · split at h <;> cases h; decide

/-- Everything a step can do. -/
theorem step_cases {s t : State} (h : step s = .next t) :
    (s.inputs = [] ∧ t = s) ∨
    (∃ c rest i, s.inputs = .command c :: rest ∧ decode c = .instr i ∧ exec i { s with inputs := rest } = .next t) ∨
    (∃ c rest why, s.inputs = .command c :: rest ∧ decode c = .illegal why ∧
      t = reject .illegal { s with inputs := rest }) ∨
    (∃ rest, (s.inputs = .reset :: rest ∨ ∃ c, s.inputs = .resetDuring c :: rest) ∧
      t = resetBlock { s with inputs := rest }) := by
  unfold step takeInput at h
  rcases hs : s.inputs with _ | ⟨i, rest⟩
  · rw [hs] at h
    exact .inl ⟨rfl, (Host.Outcome.next.inj h).symm⟩
  · rw [hs] at h
    cases i with
    | command c =>
      rcases hd : decode c with i | why
      · simp only [hd] at h
        exact .inr (.inl ⟨c, rest, i, rfl, hd, h⟩)
      · simp only [hd, execIllegal] at h
        exact .inr (.inr (.inl ⟨c, rest, why, rfl, hd, (Host.Outcome.next.inj h).symm⟩))
    | reset => exact .inr (.inr (.inr ⟨rest, .inl rfl, (Host.Outcome.next.inj h).symm⟩))
    | resetDuring c => exact .inr (.inr (.inr ⟨rest, .inr ⟨c, rfl⟩, (Host.Outcome.next.inj h).symm⟩))

end Sys2Proof.Machine
end

