-- ==== Sys2Proof/Machine/Timing.lean ====
section
/-! DEFINITION. The time of a command (70_reset_and_hazards.md R239): an open parameter that no rule and no step
reads. The model has no time; every claim holds for every value of it (log 10). -/

namespace Sys2Proof.Machine

/-- The cycles of a command beyond the first, in the state it starts from: open, so without a value. -/
opaque Config.extraCycles : Command → State → Nat

/-- LATENCY(cmd, state), a number of cycles of at least 1 (R239). -/
def latency (c : Command) (s : State) : Nat := Config.extraCycles c s + 1

end Sys2Proof.Machine
end

