-- ==== Sys2Proof/Tests/Slice0.lean ====
section
/-! SUPPORT. Tests whose expected results are the spec's own (its worked examples and 95_test_vectors.md), and for
every statement with hypotheses a witness that meets them, at the ends of their ranges. -/

namespace Sys2Proof.Tests

open Sys2Proof Sys2Proof.Machine

-- ==== States ====

/-- A state of variant `v` in session state `sess`, with BUFCNT and LEN given, H the initial vector, BUF zero. -/
def sessionState (v : Variant) (sess : Sess) (bufcnt len : Nat) : State :=
  { State.reset with
    sess := sess, var := v, h := ivRom v, bufcnt := BitVec.ofNat 7 bufcnt, len := BitVec.ofNat 128 len }

/-- A finalized state of SHA-256, as 95_test_vectors.md 6.1 shows it, its digest bytes all zero. -/
def finalState : State := { sessionState .sha256 .final 0 0 with dlen := 32, dvalid := true }

/-- `s` with one command waiting. -/
def withCommand (cmd : BitVec 32) (din : BitVec 64) (s : State) : State := { s with inputs := [.command ⟨cmd, din⟩] }

/-- What `observe` reads from a next state. -/
def nextOf {α : Type} (observe : State → α) (o : Host.Outcome State Fault Refusal) : Option α :=
  match o with
  | .next t => some (observe t)
  | .fault _ => none
  | .refused _ => none

/-- STATUS after one command with din = 0x6100000000000000, as in 95_test_vectors.md 6.1. -/
def statusAfter (s : State) (cmd : BitVec 32) : Option (BitVec 32) :=
  nextOf status (step (withCommand cmd 0x6100000000000000 s))

/-- DOUT[0..DLEN-1]. -/
def digestOf (s : State) : List Byte := s.digest.toList.take s.dlen.toNat

/-- The state before P2's FINALIZE (95_test_vectors.md section 7): "abc" accepted, 3 bytes in BUF. -/
def abcState (v : Variant) : State :=
  { sessionState v .accum 3 24 with buf := Vector.ofFn fun i => [0x61, 0x62, 0x63].getD i.val 0 }

-- ==== Well-formedness ====

theorem test_wellFormed_refuses_nine_bytes : ¬(Instr.update 9 0).WellFormed := by decide

theorem test_wellFormed_accepts_the_others :
    (Instr.update 8 0).WellFormed ∧ (Instr.init .sha512).WellFormed ∧ Instr.finalize.WellFormed := by decide

-- ==== Decoding, words written out from 30_encoding.md R61, R63, R70 ====

/-- INIT: reserved 26 bits, v, op 0001. -/
theorem test_decode_init :
    decode ⟨0b00000000000000000000000000_00_0001, 0⟩ = .instr (.init .sha224) ∧
    decode ⟨0b00000000000000000000000000_01_0001, 0⟩ = .instr (.init .sha256) ∧
    decode ⟨0b00000000000000000000000000_10_0001, 0⟩ = .instr (.init .sha384) ∧
    decode ⟨0b00000000000000000000000000_11_0001, 7⟩ = .instr (.init .sha512) := by decide

/-- UPDATE: reserved 20 bits, n, reserved 4 bits, op 0010; 3 and 8 are R70's rows. -/
theorem test_decode_update :
    decode ⟨0b00000000000000000000_0011_0000_0010, 0x6162630000000000⟩ = .instr (.update 3 0x6162630000000000) ∧
    decode ⟨0b00000000000000000000_1000_0000_0010, 0x6162636462636465⟩ = .instr (.update 8 0x6162636462636465) ∧
    decode ⟨0b00000000000000000000_0000_0000_0010, 5⟩ = .instr (.update 0 5) := by decide

/-- FINALIZE: reserved 28 bits, op 0011. -/
theorem test_decode_finalize : decode ⟨0b0000000000000000000000000000_0011, 9⟩ = .instr .finalize := by decide

/-- The illegal words of 95_test_vectors.md 6.1, by list of R66. -/
theorem test_decode_illegal :
    [0x00000000, 0x00000004, 0x0000000f].map (fun cmd => decode ⟨cmd, 0⟩) = List.replicate 3 (.illegal .opcode) ∧
    [0x00000041, 0x00000101, 0x00000812, 0x00001002, 0x00000013, 0x00000103, 0x80000003].map
      (fun cmd => decode ⟨cmd, 0⟩) = List.replicate 7 (.illegal .reservedBit) ∧
    [0x00000902, 0x00000f02].map (fun cmd => decode ⟨cmd, 0⟩) = List.replicate 2 (.illegal .byteCount) := by
  decide +kernel

/-- The numbering of a table word: the command word in bits 31..0, din above it. -/
theorem test_decodeTableWord :
    decodeTableWord 32 0x00000031 = some (.init .sha512) ∧
    decodeTableWord 96 0x616263000000000000000302 = some (.update 3 0x6162630000000000) ∧
    decodeTableWord 32 0x00000802 = some (.update 8 0) ∧ decodeTableWord 32 0x00000902 = none := by decide

/-- A table word placed by withFetchWord is what the next step runs: INIT SHA512 from reset, 95_test_vectors.md 6.1. -/
theorem test_withFetchWord :
    nextOf status (step (State.reset.withFetchWord 32 0x00000031)) = some 0x0000000d := by
  decide +kernel

-- ==== The ROM: words of R81, R82 and R86 at the ends of its rows ====

theorem test_rom :
    [0, 3, 4, 31, 60, 63].map (kRom engine32) =
      [0x428a2f98, 0xe9b5dba5, 0x3956c25b, 0x14292967, 0x90befffa, 0xc67178f2] ∧
    [0, 39, 40, 79].map (kRom engine64) =
      [0x428a2f98d728ae22, 0x92722c851482353b, 0xa2bfe8a14cf10364, 0x6c44198c4a475817] ∧
    (ivSha224[0], ivSha256[7], ivSha384[3], ivSha384[4], ivSha512[7]) =
      (0xc1059ed8, 0x5be0cd19, 0x152fecd8f70e5939, 0x67332667ffc00b31, 0x5be0cd19137e2179) := by
  decide +kernel

-- ==== The word and logic vectors of 95_test_vectors.md section 4 ====

/-- 4.1, the rows that tell rotr from shr and a wrong direction. -/
theorem test_rotr_shr :
    rotr 0x80000001#32 1 = 0xc0000000 ∧ shr 0x80000001#32 1 = 0x40000000 ∧
    rotr 0x12345678#32 8 = 0x78123456 ∧ rotr 0x12345678#32 0 = 0x12345678 ∧
    rotr 0x0123456789abcdef#64 28 = 0x9abcdef012345678 ∧ shr 0x0123456789abcdef#64 28 = 0x12345678 := by
  decide +kernel

/-- 4.3, the rows of x = the first word of the initial vector, both families. -/
theorem test_sigma :
    sigma0 engine32 0x6a09e667 = 0xba0cf582 ∧ sigma1 engine32 0x6a09e667 = 0xcfe5da3c ∧
    bigSigma0 engine32 0x6a09e667 = 0xce20b47e ∧ bigSigma1 engine32 0x6a09e667 = 0x55b65510 ∧
    sigma0 engine64 0x6a09e667f3bcc908 = 0x3dbae91951caa1df ∧ sigma1 engine64 0x6a09e667f3bcc908 = 0xc8c619e73ee44510 ∧
    bigSigma0 engine64 0x6a09e667f3bcc908 = 0x08c4db56aac80c2a ∧
    bigSigma1 engine64 0x6a09e667f3bcc908 = 0x259a6cc1643336ef := by
  decide +kernel

/-- 4.4, its third row of 32 bits and its last of 64. -/
theorem test_ch_maj :
    ch 0xf0f0f0f0#32 0xff00ff00 0x0ff00ff0 = 0xff00ff00 ∧ maj 0xf0f0f0f0#32 0xff00ff00 0x0ff00ff0 = 0xfff0fff0 ∧
    ch 0x510e527fade682d1#64 0x9b05688c2b3e6c1f 0x1f83d9abfb41bd6b = 0x1f85c98c7b273d3b ∧
    maj 0x510e527fade682d1#64 0x9b05688c2b3e6c1f 0x1f83d9abfb41bd6b = 0x1b0758afab66ac5b := by
  decide +kernel

-- ==== Padding, schedule, one round: the worked examples of R108, R129 and R149, and P3's second block ====

theorem test_pad_abc :
    pad .fam32 [0x61, 0x62, 0x63] 24 =
      [[0x61, 0x62, 0x63, 0x80] ++ List.replicate 59 0x00 ++ [0x18]] ∧
    pad .fam64 [0x61, 0x62, 0x63] 24 =
      [[0x61, 0x62, 0x63, 0x80] ++ List.replicate 108 0x00 ++ List.replicate 15 0x00 ++ [0x18]] := by
  decide +kernel

theorem test_pad_spill :
    pad .fam32 (List.replicate 56 0x61) 448 =
      [List.replicate 56 0x61 ++ [0x80] ++ List.replicate 7 0x00,
        List.replicate 56 0x00 ++ [0x00, 0x00, 0x00, 0x00, 0x00, 0x00, 0x01, 0xc0]] := by
  decide +kernel

theorem test_expand_abc :
    let w := expand engine32 ([0x61, 0x62, 0x63, 0x80] ++ List.replicate 59 0x00 ++ [0x18])
    w.getD 0 0 = 0x61626380 ∧ w.getD 15 0 = 0x18 ∧ w.getD 16 0 = 0x61626380 ∧ w.getD 17 0 = 0x000f0000 ∧
      w.getD 18 0 = 0x7da86405 ∧ w.getD 63 0 = 0x12b1edeb := by
  decide +kernel

theorem test_expand_ff :
    let w := expand engine64 (List.replicate 128 0xff)
    w.getD 16 0 = 0x05fffffffffffffc ∧ w.getD 17 0 = 0x05fffffffffffffc ∧ w.getD 79 0 = 0x838168ce14e43c5a := by
  decide +kernel

theorem test_round_abc :
    round engine32 0 (Working.ofHash ivSha256) 0x61626380 =
      ⟨0x5d6aebcd, 0x6a09e667, 0xbb67ae85, 0x3c6ef372, 0xfa2a4622, 0x510e527f, 0x9b05688c, 0x1f83d9ab⟩ := by
  decide +kernel

-- ==== One command, from the tables of 95_test_vectors.md section 6 and the programs of its section 7 ====

/-- 6.1, the column IDLE. -/
theorem test_commands_in_idle :
    [0x00000000, 0x00000001, 0x00000011, 0x00000021, 0x00000031, 0x00000041, 0x00000002, 0x00000802,
      0x00000902, 0x00000003, 0x00000013].map
      (statusAfter State.reset) =
    [some 0x00000090, some 0x00000001, some 0x00000005, some 0x00000009, some 0x0000000d, some 0x00000090,
      some 0x000000a0, some 0x000000a0, some 0x00000090, some 0x000000a0, some 0x00000090] := by
  decide +kernel

/-- 6.1, the column ACCUM, FINALIZE apart. -/
theorem test_commands_in_accum :
    [0x00000000, 0x00000011, 0x00000031, 0x00000101, 0x00000002, 0x00000802, 0x00000f02, 0x00000812,
      0x80000003].map
      (statusAfter (abcState .sha256)) =
    [some 0x00000396, some 0x00000005, some 0x0000000d, some 0x00000396, some 0x00000306, some 0x00000b06,
      some 0x00000396, some 0x00000396, some 0x00000396] := by
  decide +kernel

/-- 6.1, the column FINAL. -/
theorem test_commands_in_final :
    [0x00000000, 0x00000021, 0x00000002, 0x00000003, 0x00000103].map
      (statusAfter finalState) =
    [some 0x00208097, some 0x00000009, some 0x002080b7, some 0x002080b7, some 0x00208097] := by
  decide +kernel

/-- P2 step 6: INIT after a rejection keeps STICKY and clears the digest. -/
theorem test_init_keeps_sticky :
    nextOf (fun t => (status t, digestOf t, t.h[7]))
      (exec (.init .sha224) { finalState with var := .sha224, lasterr := .finalized, sticky := true }) =
      some (0x00000081, [], 0x00000000befa4fa4) := by
  decide +kernel

/-- P7, the first two commands from its constructed state, and 6.2's last row: LENGTH at the end of the field. -/
theorem test_update_length_limit :
    let s := sessionState .sha256 .accum 63 (2 ^ 64 - 8)
    nextOf status (exec (.update 1 0x7800000000000000) s) = some 0x00003fc6 ∧
    nextOf status (exec (.update 0 0) { s with lasterr := .length, sticky := true }) = some 0x00003f86 ∧
    nextOf (·.lasterr) (exec (.update 1 0) (sessionState .sha512 .accum 127 (2 ^ 128 - 8))) = some .length := by
  decide +kernel

/-- P4 step 10: five of the eight bytes fill the block, which is compressed; three start the next. -/
theorem test_update_crosses_a_block :
    nextOf (fun t => (status t, lenout t, t.h[0] == 0x6a09e667, t.buf[0], t.buf[3], t.buf[63]))
      (exec (.update 8 0x6161616161616161) (sessionState .sha256 .accum 59 472)) =
      some (0x00000306, 536, false, 0x61, 0x00, 0x61) := by
  decide +kernel

/-- P2 step 3: SHA-224 of "abc". -/
theorem test_finalize_sha224_abc :
    nextOf (fun t => (status t, lenout t, natOfBytes (digestOf t))) (exec .finalize (abcState .sha224)) =
      some (0x001c8003, 24, 0x23097d223405d8228642a477bda255b32aadbce4bda0b3f7e36c9da7) := by
  decide +kernel

/-- Section 2: SHA-384 of the empty message. -/
theorem test_finalize_sha384_empty :
    nextOf (fun t => natOfBytes (digestOf t)) (exec .finalize (sessionState .sha384 .empty 0 0)) =
      some 0x38b060a751ac96384cd9327eb1b1e36a21fdb71114be07434c0cc7bf63f6e1da274edebfe76f65fbd51ad2f14898b95b := by
  decide +kernel

-- ==== Witnesses: for each statement with hypotheses, states and operands that meet them ====

/-- SHA-256, the last byte before a block and the greatest LEN: the ends of R34 (a) and (b). -/
def fullState32 : State := sessionState .sha256 .accum 63 (2 ^ 64 - 8)

/-- The same for the 64-bit family. -/
def fullState64 : State := sessionState .sha512 .accum 127 (2 ^ 128 - 8)

theorem witness_inv_full32 : Inv fullState32 := by constructor <;> decide +kernel

theorem witness_inv_full64 : Inv fullState64 := by constructor <;> decide +kernel

theorem witness_inv_empty : Inv (sessionState .sha384 .empty 0 0) := by constructor <;> decide +kernel

theorem witness_inv_final : Inv finalState := by constructor <;> decide +kernel

/-- UpdateCompletesWhereItFits, UpdateWithinABlockOnlyBuffers: n = 0 at the end of LEN, n = 8 up to BUFCNT = 63 and
127, and a fresh session. -/
theorem witness_update_within :
    (fullState32.Open ∧ (0 : BitVec 4).toNat ≤ 8 ∧
      fullState32.len.toNat + 8 * (0 : BitVec 4).toNat ≤ maxLen (famOf fullState32.var) ∧
      fullState32.bufcnt.toNat + (0 : BitVec 4).toNat < blockBytes (famOf fullState32.var)) ∧
    (let s := sessionState .sha224 .accum 55 440;
      s.Open ∧ s.len.toNat + 8 * (8 : BitVec 4).toNat ≤ maxLen (famOf s.var) ∧
      s.bufcnt.toNat + (8 : BitVec 4).toNat < blockBytes (famOf s.var)) ∧
    (let s := sessionState .sha384 .empty 0 0;
      s.Open ∧ s.len.toNat + 8 * (8 : BitVec 4).toNat ≤ maxLen (famOf s.var) ∧
      s.bufcnt.toNat + (8 : BitVec 4).toNat < blockBytes (famOf s.var)) := by
  decide +kernel

/-- UpdateAcrossABlockCompressesItOnce: one byte that completes a block, and eight of which seven are left. -/
theorem witness_update_across :
    (let s := sessionState .sha256 .accum 63 504;
      s.Open ∧ s.len.toNat + 8 * (1 : BitVec 4).toNat ≤ maxLen (famOf s.var) ∧
      s.bufcnt.toNat < blockBytes (famOf s.var) ∧ blockBytes (famOf s.var) ≤ s.bufcnt.toNat + (1 : BitVec 4).toNat) ∧
    (let s := sessionState .sha512 .accum 127 (2 ^ 64 - 8);
      s.Open ∧ s.len.toNat + 8 * (8 : BitVec 4).toNat ≤ maxLen (famOf s.var) ∧
      s.bufcnt.toNat < blockBytes (famOf s.var) ∧
      blockBytes (famOf s.var) ≤ s.bufcnt.toNat + (8 : BitVec 4).toNat) := by
  decide +kernel

/-- UnusedLanesAreIgnored: the lanes below n = 3 agree, the others do not. -/
theorem witness_unused_lanes :
    ∀ j, j < (3 : BitVec 4).toNat →
      (0x6162630000000000 : BitVec 64).extractLsb' (56 - 8 * j) 8 =
        (0x616263ffffffffff : BitVec 64).extractLsb' (56 - 8 * j) 8 := by
  decide +kernel

/-- LengthOverflowIsRejectedWhole: one byte past the field, in both families, and the smaller UPDATE that fits. -/
theorem witness_length_overflow :
    (fullState32.Open ∧ (1 : BitVec 4).toNat ≤ 8 ∧
      fullState32.len.toNat + 8 * (1 : BitVec 4).toNat > 2 ^ (8 * lengthBytes (famOf fullState32.var)) - 1 ∧
      fullState32.len.toNat + 8 * (0 : BitVec 4).toNat ≤ 2 ^ (8 * lengthBytes (famOf fullState32.var)) - 1) ∧
    (fullState64.Open ∧
      fullState64.len.toNat + 8 * (1 : BitVec 4).toNat > 2 ^ (8 * lengthBytes (famOf fullState64.var)) - 1) := by
  decide +kernel

/-- GreatestLengthIsEightBelowTheField: its premise, at the bound of each family, in an open session. -/
theorem witness_greatest_length :
    Inv fullState32 ∧ famOf fullState32.var = .fam32 ∧ fullState32.Open ∧
    Inv fullState64 ∧ famOf fullState64.var = .fam64 ∧ fullState64.Open :=
  ⟨witness_inv_full32, rfl, by decide, witness_inv_full64, rfl, by decide⟩

/-- FinalizeWritesTheDigest: both open session states. -/
theorem witness_open : (sessionState .sha384 .empty 0 0).Open ∧ fullState32.Open := by decide

/-- NothingRunsBeforeInit, NothingRunsAfterFinalize, TheDigestLastsUntilInitOrReset: their session states, n = 8, and a
step from FINAL. -/
theorem witness_closed :
    State.reset.sess = .idle ∧ finalState.sess = .final ∧ (8 : BitVec 4).toNat ≤ 8 ∧ ∃ t, step finalState = .next t :=
  ⟨rfl, rfl, by decide, _, rfl⟩

/-- SessionTransitionTable: each row's session state. -/
theorem witness_session_rows :
    (8 : BitVec 4).toNat ≤ 8 ∧ State.reset.sess = .idle ∧ (sessionState .sha256 .empty 0 0).Open ∧ fullState32.Open ∧
    finalState.sess = .final := by
  decide

/-- RejectionsChangeOnlyTheErrorState: an accepted and a rejected command. -/
theorem witness_accepted_and_rejected :
    nextOf (·.lasterr) (exec (.init .sha256) State.reset) = some .ok ∧
    nextOf (·.lasterr) (exec .finalize State.reset) = some .notInit := by
  decide +kernel

/-- The statements about a command word and its decoding: each command and an illegal word, presented to a machine. -/
theorem witness_presented :
    (withCommand 0x31 0 State.reset).inputs = [.command ⟨0x31, 0⟩] ∧ decode ⟨0x31, 0⟩ = .instr (.init .sha512) ∧
    (withCommand 0x802 5 fullState32).inputs = [.command ⟨0x802, 5⟩] ∧ decode ⟨0x802, 5⟩ = .instr (.update 8 5) ∧
    (withCommand 3 0 fullState32).inputs = [.command ⟨3, 0⟩] ∧ decode ⟨3, 0⟩ = .instr .finalize ∧
    (withCommand 0x902 0 finalState).inputs = [.command ⟨0x902, 0⟩] ∧ decode ⟨0x902, 0⟩ = .illegal .byteCount := by
  decide +kernel

/-- DecodeInvertsEncode: the ends of n. -/
theorem witness_well_formed :
    (Instr.update 0 0xffffffffffffffff).WellFormed ∧ (Instr.update 8 0xffffffffffffffff).WellFormed ∧
    (Instr.init .sha224).WellFormed ∧ Instr.finalize.WellFormed := by
  decide

/-- OnlyUpdateReadsDin: a word that decodes to no UPDATE. -/
theorem witness_not_an_update :
    ∀ (n : BitVec 4) (d : BitVec 64), decode ⟨0x11, 0⟩ ≠ .instr (.update n d) := by
  have decoded : decode ⟨0x11, 0⟩ = .instr (.init .sha256) := by decide
  intro n d h
  rw [decoded] at h
  cases h

/-- The statements about reset as an input: both forms of it. -/
theorem witness_reset_inputs :
    (∃ rest, { fullState32 with inputs := [.reset] }.inputs = .reset :: rest) ∧
    (∃ c rest, { fullState32 with inputs := [.resetDuring ⟨3, 0⟩] }.inputs = .resetDuring c :: rest) :=
  ⟨⟨[], rfl⟩, ⟨3, 0⟩, [], rfl⟩

/-- NothingHappensWithoutInput: reset leaves no input waiting. -/
theorem witness_no_input : State.reset.inputs = [] := rfl

/-- OnlyResetClearsSticky: a step that clears it. -/
theorem witness_sticky_cleared :
    ∃ t, step { State.reset with sticky := true, inputs := [.reset] } = .next t ∧ t.sticky = false :=
  ⟨_, rfl, rfl⟩

/-- OnlyInitSelectsTheVariantAndLeavesFinal: an INIT that changes VAR and leaves FINAL, and one that leaves IDLE. -/
theorem witness_init_leaves_final :
    nextOf (fun t => (t.var, t.sess)) (step (withCommand 0x31 0 finalState)) = some (.sha512, .empty) ∧
    nextOf (·.sess) (step (withCommand 0x31 0 State.reset)) = some .empty := by
  decide +kernel

/-- HashStateChangesOnlyByInitAndCompression, EveryStepKeepsTheInvariants, NoDigestIsShownUnlessValid: a state that
meets the invariants and a step of it that changes H. -/
theorem witness_hash_changes :
    Inv (withCommand 0x31 0 finalState) ∧
    nextOf (fun t => (t.h[0] == (withCommand 0x31 0 finalState).h[0], t.dvalid))
      (step (withCommand 0x31 0 finalState)) = some (false, false) :=
  ⟨by constructor <;> decide +kernel, by decide +kernel⟩

/-- HiddenStateIsNeverObserved: two states that differ in the hidden part alone, and do differ. -/
theorem witness_same_to_host :
    SameToHost State.reset
      { State.reset with h := Vector.replicate 8 1, buf := Vector.replicate 128 0xff } ∧
    State.reset ≠ { State.reset with h := Vector.replicate 8 1, buf := Vector.replicate 128 0xff } :=
  ⟨by constructor <;> decide +kernel, by decide +kernel⟩

/-- UpdateAppendsItsBytesToTheMessage, FinalizeShowsTheDigestOfTheMessage: the empty message of a fresh session, and
the three bytes of `abcState`. -/
theorem witness_accepted :
    Accepted .sha384 [] (sessionState .sha384 .empty 0 0) ∧ Accepted .sha256 [0x61, 0x62, 0x63] (abcState .sha256) ∧
    8 * (3 + (8 : BitVec 4).toNat) ≤ maxLen (famOf .sha256) :=
  ⟨by constructor <;> decide +kernel, by constructor <;> decide +kernel, by decide +kernel⟩

/-- ChunkingDoesNotMatter: "abc" in one piece, and in P6's pieces with an UPDATE of no bytes. -/
theorem witness_chunking :
    let us : List (BitVec 4 × BitVec 64) := [(3, 0x6162630000000000)]
    let us' : List (BitVec 4 × BitVec 64) :=
      [(1, 0x6100000000000000), (1, 0x6200000000000000), (0, 0xffffffffffffffff), (1, 0x6300000000000000)]
    (sessionState .sha256 .empty 0 0).Open ∧ (∀ u ∈ us, u.1.toNat ≤ 8) ∧ (∀ u ∈ us', u.1.toNat ≤ 8) ∧
    us.flatMap (fun u => dinBytes u.1 u.2) = us'.flatMap (fun u => dinBytes u.1 u.2) ∧
    0 + 8 * (us.flatMap fun u => dinBytes u.1 u.2).length ≤ maxLen (famOf .sha256) :=
  ⟨by decide, by simp, by simp, by decide +kernel, by decide +kernel⟩

/-- OneShotHashGivesTheSha2Digest: the empty message, and one of eight bytes and more. -/
theorem witness_one_shot :
    8 * ([] : List Byte).length ≤ maxLen (famOf .sha224) ∧ 8 * (List.replicate 67 (0x61 : Byte)).length ≤ maxLen .fam32 := by
  decide +kernel

/-- RoundConstantsAreCubeRootFractions, InitialVectorsAreSquareRootFractions: the first prime of each clause, and
the ninth prime, 23, the first of SHA-384 and SHA-224. -/
theorem witness_primes :
    Nat.Prime 2 ∧ Nat.count Nat.Prime 2 = 0 ∧ Nat.Prime 23 ∧ Nat.count Nat.Prime 23 = 0 + 8 := by
  decide +kernel

/-- The padding statements: remainders of 0, 55, 56 and B - 1 bytes, and the greatest lengths. -/
theorem witness_remainders :
    ([] : List Byte).length < blockBytes .fam32 ∧ (List.replicate 55 (0 : Byte)).length < blockBytes .fam32 ∧
    (List.replicate 56 (0 : Byte)).length < blockBytes .fam32 ∧ (List.replicate 127 (0 : Byte)).length < blockBytes .fam64 ∧
    2 ^ 64 - 8 < 2 ^ (8 * lengthBytes .fam32) ∧ 2 ^ 128 - 8 < 2 ^ (8 * lengthBytes .fam64) := by
  decide +kernel

/-- DigestBytesAreTheWordsBigEndian: the last byte of the last digest word, SHA-384 and SHA-224. -/
theorem witness_digest_bytes :
    5 < digestWords .sha384 ∧ 7 < wordBits (famOf .sha384) / 8 ∧ 6 < digestWords .sha224 ∧
    3 < wordBits (famOf .sha224) / 8 := by
  decide

/-- The schedule statements: a block of each family, and the ends of t and j. -/
theorem witness_blocks :
    (List.replicate 64 (0 : Byte)).length = 16 * (32 / 8) ∧ (List.replicate 128 (0 : Byte)).length = 16 * (64 / 8) ∧
    15 < 16 ∧ 63 < engine32.rounds ∧ 79 < engine64.rounds ∧ 127 < 128 := by
  decide

/-- Family32KeepsTheHighHalvesZero: two hash states whose low halves agree and whose high halves do not. -/
theorem witness_low_halves :
    ∀ i : Fin 8, (Vector.replicate 8 (0xffffffff00000005 : BitVec 64))[i].extractLsb' 0 32 =
      (Vector.replicate 8 (5 : BitVec 64))[i].extractLsb' 0 32 := by
  decide +kernel

/-- RotateAndShiftMoveBits, BigEndianConversionsAreInverse: the ends of n, and a number of k bytes. -/
theorem witness_words : 0 < 1 ∧ 1 < 32 ∧ 63 < 64 ∧ 32 = 8 * 4 ∧ 0x61626300 < 2 ^ (8 * 4) := by decide

end Sys2Proof.Tests
end

