-- ==== Sys2Proof/Proofs/Scope.lean ====
section
/-! PROOFS. The word and byte conventions of 00_scope.md: rotation and shift (R11, R12), big-endian conversions
(R14, R15). -/

namespace Sys2Proof.Machine

/-- Within the word, the datapath's rotation (R11) is the library's. -/
theorem rotr_eq_rotateRight {w n : Nat} (x : Word w) (hn : n < w) : rotr x n = x.rotateRight n := by
  rw [BitVec.rotateRight_def, Nat.mod_eq_of_lt hn, rotr]

/-- Rotation moves bit (i + n) mod w to bit i (R11). -/
theorem getLsbD_rotr {w n i : Nat} (x : Word w) (hn : n < w) (hi : i < w) :
    (rotr x n).getLsbD i = x.getLsbD ((i + n) % w) := by
  rw [rotr_eq_rotateRight x hn, BitVec.getLsbD_rotateRight, Nat.mod_eq_of_lt hn]
  by_cases hlow : i < w - n
  · rw [decide_eq_true hlow, cond_true, Nat.mod_eq_of_lt (by omega), Nat.add_comm]
  · have hwrap : (i + n) % w = i - (w - n) := by
      rw [Nat.mod_eq_sub_mod (by omega), Nat.mod_eq_of_lt (by omega)]
      omega
    rw [decide_eq_false hlow, cond_false, decide_eq_true hi, Bool.true_and, hwrap]

/-- The formula of R11: the right shift does not reach past the word, so one reduction covers both halves. -/
theorem rotr_toNat {w : Nat} (x : Word w) (n : Nat) :
    (rotr x n).toNat = (x.toNat / 2 ^ n ||| x.toNat * 2 ^ (w - n)) % 2 ^ w := by
  have hlow : x.toNat / 2 ^ n < 2 ^ w := (Nat.div_le_self _ _).trans_lt x.isLt
  rw [rotr, BitVec.toNat_or, BitVec.toNat_ushiftRight, BitVec.toNat_shiftLeft, Nat.shiftRight_eq_div_pow,
    Nat.shiftLeft_eq, Nat.or_mod_two_pow, Nat.mod_eq_of_lt hlow]

/-- shr is the floor of x / 2^n (R12). -/
theorem shr_toNat {w : Nat} (x : Word w) (n : Nat) : (shr x n).toNat = x.toNat / 2 ^ n := by
  rw [shr, BitVec.toNat_ushiftRight, Nat.shiftRight_eq_div_pow]

theorem getLsbD_shr {w : Nat} (x : Word w) (n i : Nat) : (shr x n).getLsbD i = x.getLsbD (n + i) := by
  rw [shr, BitVec.getLsbD_ushiftRight]

/-- The value of a byte sequence is its weighted sum (R14). -/
theorem natOfBytes_eq_sum (s : List Byte) :
    natOfBytes s = ∑ j ∈ Finset.range s.length, (s.getD j 0).toNat * 2 ^ (8 * (s.length - (j + 1))) := by
  induction s using List.reverseRecOn with
  | nil => rfl
  | append_singleton l x ih =>
    have hfront : ∀ j ∈ Finset.range l.length,
        ((l ++ [x]).getD j 0).toNat * 2 ^ (8 * (l.length + 1 - (j + 1))) =
          256 * ((l.getD j 0).toNat * 2 ^ (8 * (l.length - (j + 1)))) := by
      intro j hj
      have hj : j < l.length := Finset.mem_range.1 hj
      rw [List.getD_append _ _ _ _ hj, show 8 * (l.length + 1 - (j + 1)) = 8 * (l.length - (j + 1)) + 8 by omega,
        pow_add]
      ring
    have hlast : ((l ++ [x]).getD l.length 0).toNat * 2 ^ (8 * (l.length + 1 - (l.length + 1))) = x.toNat := by
      simp
    rw [natOfBytes_snoc, List.length_append, List.length_singleton, Finset.sum_range_succ, Finset.sum_congr rfl hfront,
      ← Finset.mul_sum, ← ih, hlast]

/-- The bytes of the value of a sequence are the sequence. -/
theorem bytesBE_natOfBytes (s : List Byte) : bytesBE (natOfBytes s) s.length = s := by
  induction s using List.reverseRecOn with
  | nil => rfl
  | append_singleton l x ih =>
    have hx : x.toNat < 256 := x.isLt
    have hdiv : (256 * natOfBytes l + x.toNat) / 256 = natOfBytes l := by omega
    have hlow : BitVec.ofNat 8 (256 * natOfBytes l + x.toNat) = x :=
      BitVec.eq_of_toNat_eq (by rw [BitVec.toNat_ofNat]; omega)
    rw [natOfBytes_snoc, List.length_append, List.length_singleton, bytesBE_succ, hdiv, hlow, ih]

/-- k bytes hold the number modulo 2^(8k). -/
theorem natOfBytes_bytesBE (x k : Nat) : natOfBytes (bytesBE x k) = x % 2 ^ (8 * k) := by
  induction k generalizing x with
  | zero => simp [bytesBE, Nat.mod_one]
  | succ k ih =>
    rw [bytesBE_succ, natOfBytes_snoc, ih, BitVec.toNat_ofNat, Nat.mul_succ, Nat.add_comm (8 * k), pow_add, Nat.mod_mul,
      Nat.add_comm]
    rfl

/-- Byte j of k, the most significant first (R15). -/
theorem bytesBE_getElem? (x : Nat) {j k : Nat} (hj : j < k) :
    (bytesBE x k)[j]? = some (BitVec.ofNat 8 (x / 2 ^ (8 * (k - (j + 1))))) := by
  rw [bytesBE, List.getElem?_map, List.getElem?_range hj, Option.map_some, Nat.shiftRight_eq_div_pow, Nat.sub_sub,
    Nat.add_comm 1]

/-- A word at least as wide as its bytes holds their whole value. -/
theorem wordOfBytes_toNat {w : Nat} {s : List Byte} (h : 8 * s.length ≤ w) :
    (wordOfBytes w s).toNat = natOfBytes s := by
  rw [wordOfBytes, BitVec.toNat_ofNat,
    Nat.mod_eq_of_lt ((natOfBytes_lt s).trans_le (Nat.pow_le_pow_right two_pos h))]

/-- Settles O45: the rotation is the library's, read bit by bit; the amounts of both engines are listed. -/
theorem rotateAndShiftMoveBits : Obligations.RotateAndShiftMoveBits := by
  refine ⟨fun w n x _ hn => ⟨fun i hi => getLsbD_rotr x hn hi, rotr_toNat x n, shr_toNat x n, fun i hi => ?_⟩, ?_, ?_⟩
  · rw [getLsbD_shr]
    exact BitVec.getLsbD_of_ge x _ (by omega)
  all_goals
    unfold RotateAmountsAreInRange
    decide

/-- Settles O46: each conversion is read one byte at a time from the least significant end. -/
theorem bigEndianConversionsAreInverse : Obligations.BigEndianConversionsAreInverse := by
  refine ⟨natOfBytes_eq_sum, ?_, fun x k hx => ⟨bytesBE_length x k, ?_, fun j hj => bytesBE_getElem? x hj⟩⟩
  · rintro w k s rfl rfl
    have hword := wordOfBytes_toNat (le_refl (8 * s.length))
    exact ⟨hword, by rw [hword, bytesBE_natOfBytes]⟩
  · rw [natOfBytes_bytesBE, Nat.mod_eq_of_lt hx]

end Sys2Proof.Machine
end

/-! PROOFS. The output ports of 10_state.md: where STATUS shows each field and which values the fields take between
commands (R31), what LENOUT and DOUT return (R32). -/

namespace Sys2Proof.Machine

section StatusFields

variable (s : State)

-- STATUS concatenates its fields from the top: the fields below the wanted one are dropped, and it is then the low
-- end of what is left. STICKY and DVALID are read as bits.

@[simp] theorem extractLsb'_status_sess : (status s).extractLsb' 0 2 = s.sess.code :=
  BitVec.extractLsb'_append_eq_right

@[simp] theorem extractLsb'_status_var : (status s).extractLsb' 2 2 = s.var.code := by
  unfold status
  rw [BitVec.extractLsb'_append_eq_of_le (by decide)]
  exact BitVec.extractLsb'_append_eq_right

@[simp] theorem extractLsb'_status_lasterr : (status s).extractLsb' 4 3 = s.lasterr.code := by
  unfold status
  iterate 2 rw [BitVec.extractLsb'_append_eq_of_le (by decide)]
  exact BitVec.extractLsb'_append_eq_right

theorem getLsbD_status_sticky : (status s).getLsbD 7 = s.sticky := by
  unfold status
  iterate 3 rw [BitVec.getLsbD_append, if_neg (by decide)]
  rw [BitVec.getLsbD_append, if_pos (by decide)]
  exact BitVec.getLsbD_ofBool _ 0

@[simp] theorem extractLsb'_status_bufcnt : (status s).extractLsb' 8 7 = s.bufcnt := by
  unfold status
  iterate 4 rw [BitVec.extractLsb'_append_eq_of_le (by decide)]
  exact BitVec.extractLsb'_append_eq_right

theorem getLsbD_status_dvalid : (status s).getLsbD 15 = s.dvalid := by
  unfold status
  iterate 5 rw [BitVec.getLsbD_append, if_neg (by decide)]
  rw [BitVec.getLsbD_append, if_pos (by decide)]
  exact BitVec.getLsbD_ofBool _ 0

@[simp] theorem extractLsb'_status_dlen : (status s).extractLsb' 16 7 = s.dlen := by
  unfold status
  iterate 6 rw [BitVec.extractLsb'_append_eq_of_le (by decide)]
  exact BitVec.extractLsb'_append_eq_right

@[simp] theorem extractLsb'_status_reserved : (status s).extractLsb' 23 9 = 0 := by
  unfold status
  iterate 7 rw [BitVec.extractLsb'_append_eq_of_le (by decide)]
  rfl

end StatusFields

/-- LASTERR never shows the codes 5..7 (R31). -/
theorem ErrCode.code_toNat_le (e : ErrCode) : e.code.toNat ≤ 4 := by cases e <;> decide

/-- The four digest lengths in bytes (R31, R90). -/
theorem digestBytes_mem (v : Variant) : digestBytes v ∈ [28, 32, 48, 64] := by cases v <;> decide

/-- BUFCNT is below the block size in every session state: an idle block has it at 0. -/
theorem Inv.bufcnt_lt_blockBytes {s : State} (inv : Inv s) : s.bufcnt.toNat < blockBytes (famOf s.var) := by
  by_cases idle : s.sess = .idle
  · rw [inv.bufcnt_zero (.inl idle)]
    exact blockBytes_pos _
  · exact inv.bufcnt_lt idle

/-- DLEN is 0 before a digest is valid and the variant's digest length after (R31). -/
theorem Inv.dlen_mem {s : State} (inv : Inv s) : s.dlen.toNat ∈ [0, 28, 32, 48, 64] := by
  cases valid : s.dvalid with
  | false =>
    rw [(inv.no_digest valid).1]
    exact List.mem_cons_self
  | true =>
    rw [inv.dlen_valid valid]
    exact List.mem_cons_of_mem _ (digestBytes_mem _)

/-- Settles O29: each field is cut out of STATUS by its own lemma, and its legal values are those of the register
it shows. -/
theorem statusFieldsAreWhereTheTableSays : Obligations.StatusFieldsAreWhereTheTableSays := by
  refine ⟨fun s => ⟨?_, ?_, ?_, getLsbD_status_sticky s, extractLsb'_status_bufcnt s, getLsbD_status_dvalid s,
    extractLsb'_status_dlen s, extractLsb'_status_reserved s⟩, fun s inv => ⟨?_, ?_, ?_⟩, rfl,
    fun s => ⟨rfl, fun i => rfl⟩⟩
  · rw [extractLsb'_status_sess]
    cases s.sess <;> rfl
  · rw [extractLsb'_status_var]
    cases s.var <;> rfl
  · rw [extractLsb'_status_lasterr]
    cases s.lasterr <;> rfl
  · rw [extractLsb'_status_lasterr]
    exact s.lasterr.code_toNat_le
  · rw [extractLsb'_status_bufcnt]
    exact Nat.le_sub_one_of_lt inv.bufcnt_lt_blockBytes
  · rw [extractLsb'_status_dlen]
    exact inv.dlen_mem

end Sys2Proof.Machine

/-! PROOFS. Chunking (20_memory.md R50): a sequence of accepted UPDATEs is one absorption of the bytes it delivers, so
how it splits them does not matter. -/

namespace Sys2Proof.Machine

/-- The session, the length and the error code are not read by the byte loop, and stay as they are. -/
theorem absorb_update_sess_len_lasterr (bs : List Byte) (s : State) (x : Sess) (l : BitVec 128) (e : ErrCode) :
    absorb bs { s with sess := x, len := l, lasterr := e } = { absorb bs s with sess := x, len := l, lasterr := e } := by
  have one (r : State) (b : Byte) : absorbByte { r with sess := x, len := l, lasterr := e } b =
      { absorbByte r b with sess := x, len := l, lasterr := e } := by
    unfold absorbByte
    split_ifs <;> rfl
  induction bs generalizing s with
  | nil => rfl
  | cons b bs ih => rw [absorb_cons, absorb_cons, one, ih]

/-- The state once an open session has accepted `bs`: `afterUpdate` for any number of bytes. -/
def afterBytes (bs : List Byte) (s : State) : State :=
  accept { countBytes bs.length (absorb bs s) with sess := .accum }

@[simp] theorem dinBytes_length (n : BitVec 4) (din : BitVec 64) : (dinBytes n din).length = n.toNat := by
  simp [dinBytes]

theorem afterUpdate_eq_afterBytes (n : BitVec 4) (din : BitVec 64) (s : State) :
    afterUpdate n din s = afterBytes (dinBytes n din) s := by
  rw [afterUpdate, afterBytes, dinBytes_length]

/-- Accepting two byte sequences one after the other is accepting them joined. -/
theorem afterBytes_append (bs cs : List Byte) (s : State) :
    afterBytes (bs ++ cs) s = afterBytes cs (afterBytes bs s) := by
  have loop : absorb cs (afterBytes bs s) =
      { absorb (bs ++ cs) s with sess := .accum, len := (afterBytes bs s).len, lasterr := .ok } := by
    rw [absorb_append]
    exact absorb_update_sess_len_lasterr cs (absorb bs s) .accum (afterBytes bs s).len .ok
  have count : BitVec.ofNat 128 (s.len.toNat + 8 * (bs ++ cs).length) =
      BitVec.ofNat 128 ((afterBytes bs s).len.toNat + 8 * cs.length) := by
    simp only [afterBytes, accept_len, countBytes_len, absorb_len, List.length_append, Nat.mul_add, BitVec.ofNat_add,
      BitVec.ofNat_toNat, BitVec.setWidth_eq, BitVec.add_assoc]
  rw [afterBytes, afterBytes, loop]
  simp only [accept, countBytes, absorb_len, count]

/-- The bytes a sequence of UPDATEs delivers, in message order. -/
def deliveredBytes (us : List (BitVec 4 × BitVec 64)) : List Byte := us.flatMap fun u => dinBytes u.1 u.2

theorem deliveredBytes_cons (u : BitVec 4 × BitVec 64) (us : List (BitVec 4 × BitVec 64)) :
    deliveredBytes (u :: us) = dinBytes u.1 u.2 ++ deliveredBytes us := List.flatMap_cons

/-- The state once an open session has accepted a sequence of UPDATEs: it depends on the bytes delivered, and on
whether there was an UPDATE at all. -/
def afterUpdates (us : List (BitVec 4 × BitVec 64)) (s : State) : State :=
  if us = [] then s else afterBytes (deliveredBytes us) s

/-- UPDATEs from the second on continue from where the first left off. -/
theorem afterUpdates_cons (u : BitVec 4 × BitVec 64) (us : List (BitVec 4 × BitVec 64)) (s : State) :
    afterUpdates (u :: us) s = afterUpdates us (afterUpdate u.1 u.2 s) := by
  rw [afterUpdate_eq_afterBytes, afterUpdates, if_neg (List.cons_ne_nil u us), deliveredBytes_cons, afterUpdates]
  split_ifs with hus
  · rw [hus, deliveredBytes, List.flatMap_nil, List.append_nil]
  · exact afterBytes_append _ _ s

/-- In an open session, UPDATEs whose bytes the length field can count are all accepted. -/
theorem runInstrs_updates (us : List (BitVec 4 × BitVec 64)) (s : State) (isOpen : s.Open)
    (short : ∀ u ∈ us, u.1.toNat ≤ 8) (fits : s.len.toNat + 8 * (deliveredBytes us).length ≤ maxLen (famOf s.var)) :
    runInstrs (us.map fun u => .update u.1 u.2) s = .next (afterUpdates us s) := by
  induction us generalizing s with
  | nil => rfl
  | cons u us ih =>
    obtain ⟨hu, hus⟩ := List.forall_mem_cons.1 short
    rw [deliveredBytes_cons, List.length_append, dinBytes_length] at fits
    have accepted : exec (.update u.1 u.2) s = .next (afterUpdate u.1 u.2 s) :=
      exec_update_accepted ((updateError_eq_none_iff u.1 s).2 ⟨hu, isOpen, by omega⟩)
    have hvar : (afterUpdate u.1 u.2 s).var = s.var := by simp [afterUpdate]
    have hlen : (afterUpdate u.1 u.2 s).len.toNat ≤ s.len.toNat + 8 * u.1.toNat := by
      simpa [afterUpdate] using Nat.mod_le _ _
    have rest := ih (afterUpdate u.1 u.2 s) (.inr rfl) hus (by rw [hvar]; omega)
    rw [List.map_cons, runInstrs, accepted, afterUpdates_cons]
    exact rest

section AfterUpdates

variable (us : List (BitVec 4 × BitVec 64)) (s : State)

/-- Every field but SESS, LEN and LASTERR is what the byte loop leaves. An empty sequence absorbs and counts nothing,
and keeps SESS and LASTERR. -/
theorem afterUpdates_eq : afterUpdates us s = { absorb (deliveredBytes us) s with
    sess := if us = [] then s.sess else .accum
    len := BitVec.ofNat 128 (s.len.toNat + 8 * (deliveredBytes us).length)
    lasterr := if us = [] then s.lasterr else .ok } := by
  cases us with
  | nil => simp [afterUpdates, deliveredBytes]
  | cons u us => simp [afterUpdates, afterBytes, accept, countBytes]

@[simp] theorem afterUpdates_sess : (afterUpdates us s).sess = if us = [] then s.sess else .accum := by
  rw [afterUpdates_eq]

@[simp] theorem afterUpdates_h : (afterUpdates us s).h = (absorb (deliveredBytes us) s).h := by
  rw [afterUpdates_eq]

@[simp] theorem afterUpdates_bufcnt : (afterUpdates us s).bufcnt = (absorb (deliveredBytes us) s).bufcnt := by
  rw [afterUpdates_eq]

@[simp] theorem afterUpdates_len :
    (afterUpdates us s).len = BitVec.ofNat 128 (s.len.toNat + 8 * (deliveredBytes us).length) := by
  rw [afterUpdates_eq]

@[simp] theorem afterUpdates_var : (afterUpdates us s).var = s.var := by
  rw [afterUpdates_eq]
  exact absorb_var _ s

@[simp] theorem remainder_afterUpdates :
    remainder (afterUpdates us s) = remainder (absorb (deliveredBytes us) s) := by
  rw [afterUpdates_eq]
  rfl

theorem afterUpdates_open (isOpen : s.Open) : (afterUpdates us s).Open := by
  rw [State.Open, afterUpdates_sess]
  split_ifs
  · exact isOpen
  · exact .inr rfl

end AfterUpdates

/-- The digest FINALIZE writes is made of VAR, H, the buffered bytes and LEN alone (45_commands.md R189, R190). -/
theorem afterFinalize_digest (s : State) : (afterFinalize s).digest = digestRegister (serialize s.var
    (compressBlocks (famOf s.var) s.h (pad (famOf s.var) (remainder s) s.len.toNat))) := by
  simp [afterFinalize]

/-- Settles O41: each sequence runs to `afterUpdates`, whose H, buffered bytes, BUFCNT, LEN and VAR are functions of
the bytes delivered. -/
theorem chunkingDoesNotMatter : Obligations.ChunkingDoesNotMatter := by
  intro s us us' isOpen short short' same fits
  change deliveredBytes us = deliveredBytes us' at same
  change _ + 8 * (deliveredBytes us).length ≤ _ at fits
  have finalizes (vs : List (BitVec 4 × BitVec 64)) :
      exec .finalize (afterUpdates vs s) = .next (afterFinalize (afterUpdates vs s)) :=
    exec_finalize_accepted ((sessionError_eq_none_iff _).2 (afterUpdates_open vs s isOpen))
  refine ⟨afterUpdates us s, afterUpdates us' s, runInstrs_updates us s isOpen short fits,
    runInstrs_updates us' s isOpen short' (same ▸ fits), ?hash, ?buffered, ?count, ?length, afterUpdates_sess us s,
    afterUpdates_sess us' s, _, _, finalizes us, finalizes us', ?digest⟩
  case hash => rw [afterUpdates_h, afterUpdates_h, same]
  case buffered => rw [remainder_afterUpdates, remainder_afterUpdates, same]
  case count => rw [afterUpdates_bufcnt, afterUpdates_bufcnt, same]
  case length => rw [afterUpdates_len, afterUpdates_len, same]
  case digest => simp only [afterFinalize_digest, afterUpdates_var, afterUpdates_h, remainder_afterUpdates,
    afterUpdates_len, same]

end Sys2Proof.Machine

/-! PROOFS. Command encoding (30_encoding.md): when a word decodes to each command, by its fields and by its row's match
and mask (R63), the operands decode hands on (R62), and the worked encodings (R70). -/

namespace Sys2Proof.Machine

section OpcodeRows

/-- A field the mask covers in full is that field of the match. -/
theorem extractLsb'_eq_of_and_eq {cmd mask bits : BitVec 32} {start len : Nat} (matched : cmd &&& mask = bits)
    (covers : mask.extractLsb' start len = BitVec.allOnes len) :
    cmd.extractLsb' start len = bits.extractLsb' start len := by
  rw [← matched, BitVec.extractLsb'_and, covers, BitVec.and_allOnes]

variable (cmd : BitVec 32)

/-- The match and mask of the INIT row are its condition on the fields (R63). -/
theorem and_initRow_mask_eq_iff :
    cmd &&& initRow.mask = initRow.matchBits ↔ cmd.extractLsb' 0 4 = 1 ∧ cmd.extractLsb' 6 26 = 0 := by
  constructor
  · intro matched
    exact ⟨extractLsb'_eq_of_and_eq matched (by decide), extractLsb'_eq_of_and_eq matched (by decide)⟩
  · rintro ⟨op, reserved⟩
    rw [init_word_of_fields op reserved]
    generalize cmd.extractLsb' 4 2 = v
    revert v
    decide

/-- The match and mask of the UPDATE row are its condition on the fields other than n (R63). -/
theorem and_updateRow_mask_eq_iff :
    cmd &&& updateRow.mask = updateRow.matchBits ↔
      cmd.extractLsb' 0 4 = 2 ∧ cmd.extractLsb' 12 20 = 0 ∧ cmd.extractLsb' 4 4 = 0 := by
  constructor
  · intro matched
    exact ⟨extractLsb'_eq_of_and_eq matched (by decide), extractLsb'_eq_of_and_eq matched (by decide),
      extractLsb'_eq_of_and_eq matched (by decide)⟩
  · rintro ⟨op, high, low⟩
    rw [update_word_of_fields op high low]
    generalize cmd.extractLsb' 8 4 = n
    revert n
    decide

/-- The mask of the FINALIZE row is the whole word (R63). -/
theorem and_finalizeRow_mask_eq_iff : cmd &&& finalizeRow.mask = finalizeRow.matchBits ↔ cmd = 3 := by
  rw [show finalizeRow.mask = BitVec.allOnes 32 by decide, BitVec.and_allOnes]
  rfl

theorem eq_three_iff_fields : cmd = 3 ↔ cmd.extractLsb' 0 4 = 3 ∧ cmd.extractLsb' 4 28 = 0 := by
  constructor
  · rintro rfl
    decide
  · rintro ⟨op, reserved⟩
    exact finalize_word_of_fields op reserved

end OpcodeRows

section Decoding

variable (c : Command)

theorem exists_decode_eq_init_iff :
    (∃ v, decode c = .instr (.init v)) ↔ c.cmd.extractLsb' 0 4 = 1 ∧ c.cmd.extractLsb' 6 26 = 0 := by
  simp only [decode_eq_init_iff, opField, exists_and_left, exists_eq, and_true]

theorem exists_decode_eq_update_iff :
    (∃ n din, decode c = .instr (.update n din)) ↔
      c.cmd.extractLsb' 0 4 = 2 ∧ c.cmd.extractLsb' 12 20 = 0 ∧ c.cmd.extractLsb' 4 4 = 0 ∧
        (c.cmd.extractLsb' 8 4).toNat ≤ 8 := by
  simp only [decode_eq_update_iff, opField, nField, exists_and_left, exists_eq, and_true]

/-- The decoder is total: a word is ILLEGAL exactly when it decodes to no command (R65). -/
theorem exists_decode_eq_illegal_iff : (∃ why, decode c = .illegal why) ↔ ∀ i, decode c ≠ .instr i := by
  cases decode c with
  | instr i => simp
  | illegal why => simp

/-- A word is ILLEGAL exactly when it meets the condition of no row (R63, R66). -/
theorem exists_decode_eq_illegal_iff_no_row :
    (∃ why, decode c = .illegal why) ↔
      ¬(c.cmd.extractLsb' 0 4 = 1 ∧ c.cmd.extractLsb' 6 26 = 0) ∧
      ¬(c.cmd.extractLsb' 0 4 = 2 ∧ c.cmd.extractLsb' 12 20 = 0 ∧ c.cmd.extractLsb' 4 4 = 0 ∧
        (c.cmd.extractLsb' 8 4).toNat ≤ 8) ∧
      c.cmd ≠ 3 := by
  rw [exists_decode_eq_illegal_iff, ← exists_decode_eq_init_iff, ← exists_decode_eq_update_iff, ne_eq,
    ← decode_eq_finalize_iff]
  constructor
  · intro noCommand
    exact ⟨fun ⟨v, decoded⟩ => noCommand _ decoded, fun ⟨n, din, decoded⟩ => noCommand _ decoded, noCommand .finalize⟩
  · rintro ⟨noInit, noUpdate, noFinalize⟩ i decoded
    cases i with
    | init v => exact noInit ⟨v, decoded⟩
    | update n din => exact noUpdate ⟨n, din, decoded⟩
    | finalize => exact noFinalize decoded

/-- Settles O2: the conditions are the decoder's own, and each row's match and mask are read off as its fields. -/
theorem decodesExactlyTheOpcodeMap : Obligations.DecodesExactlyTheOpcodeMap := by
  intro c
  have init := exists_decode_eq_init_iff c
  have update := exists_decode_eq_update_iff c
  have finalize := decode_eq_finalize_iff c
  refine ⟨init, init.trans (and_initRow_mask_eq_iff c.cmd).symm, update, update.trans ?updateMask,
    finalize.trans (eq_three_iff_fields c.cmd), finalize.trans (and_finalizeRow_mask_eq_iff c.cmd).symm,
    exists_decode_eq_illegal_iff c⟩
  case updateMask =>
    have mask := and_updateRow_mask_eq_iff c.cmd
    simp only [updateRow] at mask
    rw [mask, and_assoc, and_assoc]

end Decoding

/-- Settles O3: the code of the decoded variant is the v field, and byte j of the message is lane j of din. -/
theorem decodedOperandsAreTheFields : Obligations.DecodedOperandsAreTheFields := by
  refine fun c => ⟨fun v decoded => ?_, fun n din decoded => ?_⟩
  · obtain ⟨-, -, rfl⟩ := (decode_eq_init_iff c v).1 decoded
    refine (code_ofCode (vField c.cmd)).symm.trans ?_
    cases Variant.ofCode (vField c.cmd) <;> rfl
  · obtain ⟨-, -, -, bound, rfl, rfl⟩ := (decode_eq_update_iff c n din).1 decoded
    refine ⟨rfl, bound, rfl, dinBytes_length _ _, fun j inRange => ?_⟩
    rw [dinBytes_getElem?, if_pos inRange, dinLane]

section EncodedWords

variable (din : BitVec 64)

/-- The word of INIT decodes to it under any din (R60). -/
theorem decode_init_word (v : Variant) : decode ⟨(encode (.init v)).cmd, din⟩ = .instr (.init v) := by
  obtain ⟨op, code, reserved⟩ := init_word_fields v.code
  exact (decode_eq_init_iff _ v).2 ⟨op, reserved, (code ▸ ofCode_code v).symm⟩

/-- The word of a well-formed UPDATE decodes to it, and din is handed on. -/
theorem decode_encode_update {n : BitVec 4} (bound : n.toNat ≤ 8) :
    decode (encode (.update n din)) = .instr (.update n din) := by
  obtain ⟨op, count, high, low⟩ := update_word_fields n
  exact (decode_eq_update_iff _ n din).2 ⟨op, high, low, count.symm ▸ bound, count.symm, rfl⟩

/-- The word of FINALIZE decodes to it under any din (R60). -/
theorem decode_finalize_word : decode ⟨(encode .finalize).cmd, din⟩ = .instr .finalize :=
  (decode_eq_finalize_iff _).2 rfl

end EncodedWords

/-- Settles O1: the words are the encoder's, so the rows that decode are read from the words' fields; each of the last
four words meets the condition of no row. -/
theorem workedEncodingsDecode : Obligations.WorkedEncodingsDecode := by
  refine ⟨rfl, rfl, rfl, rfl, rfl, rfl, rfl, rfl, fun din => ⟨decode_init_word din .sha224,
    decode_init_word din .sha256, decode_init_word din .sha384, decode_init_word din .sha512,
    decode_encode_update din (n := 0) (by decide), decode_encode_update din (n := 3) (by decide),
    decode_encode_update din (n := 8) (by decide), decode_finalize_word din, ?_⟩⟩
  intro cmd listed
  refine (exists_decode_eq_illegal_iff_no_row _).2 ?_
  dsimp only
  obtain rfl | rfl | rfl | rfl := listed <;> decide

end Sys2Proof.Machine

/-! PROOFS. The ROM (40_constant_rom.md): the round constants (R83) and the initial vectors (R87) against their
definition by the roots of the first primes. A word x of the ROM is the fraction of a root: with i the root's integer
part, i * 2^w + x is the integer root of the scaled prime, and that is two comparisons of powers (`IsRootFraction`).
The prime with t primes below it is entry t of `firstPrimes`. -/

namespace Sys2Proof.Machine

section FirstPrimes

/-- Among the numbers below n that satisfy P, in order, p stands at the index that counts those below p. -/
theorem getElem?_filter_range_count {P : Nat → Prop} [DecidablePred P] {p n : Nat} (hp : P p) (below : p < n) :
    ((List.range n).filter P)[Nat.count P p]? = some p := by
  obtain ⟨m, rfl⟩ := Nat.exists_eq_add_of_lt below
  have hlen : ((List.range p).filter P).length = Nat.count P p := List.countP_eq_length_filter.symm
  rw [Nat.add_assoc, List.range_add, List.filter_append, List.range_succ_eq_map, List.map_cons, Nat.add_zero,
    List.filter_cons_of_pos (by simpa using hp), List.getElem?_append_right hlen.le, hlen, Nat.sub_self]
  rfl

/-- n is not divided by any of the eight primes below 23 but itself: a test of primality below 23^2. -/
abbrev PassesTrialDivision (n : Nat) : Prop :=
  2 ≤ n ∧ ∀ q ∈ [2, 3, 5, 7, 11, 13, 17, 19], q ∣ n → q = n

/-- The primes below 23 are the ones tried. -/
theorem mem_of_prime_lt_23 : ∀ q < 23, q.Prime → q ∈ [2, 3, 5, 7, 11, 13, 17, 19] := by
  decide

/-- The least factor of a composite number below 23^2 is below 23. -/
theorem prime_iff_passesTrialDivision {n : Nat} (small : n < 23 ^ 2) : n.Prime ↔ PassesTrialDivision n := by
  refine ⟨fun hn => ⟨hn.two_le, fun q hq hdvd => ?_⟩, fun ⟨two_le, pass⟩ => by_contra fun composite => ?_⟩
  · exact (hn.eq_one_or_self_of_dvd q hdvd).resolve_left (by rintro rfl; exact absurd hq (by decide))
  · have hmin : n.minFac < 23 :=
      lt_of_pow_lt_pow_left₀ 2 (by decide) ((Nat.minFac_sq_le_self (by omega) composite).trans_lt small)
    have hprime : n.minFac.Prime := Nat.minFac_prime (by omega)
    exact composite (pass _ (mem_of_prime_lt_23 _ hmin hprime) n.minFac_dvd ▸ hprime)

theorem count_prime_eq_count_passesTrialDivision {n : Nat} (small : n ≤ 23 ^ 2) :
    Nat.count Nat.Prime n = Nat.count PassesTrialDivision n := by
  refine List.countP_congr fun q hq => ?_
  have hq : q < n := List.mem_range.1 hq
  rw [decide_eq_true_iff, decide_eq_true_iff]
  exact prime_iff_passesTrialDivision (hq.trans_le small)

/-- The first eighty primes, p_0 to p_79 (R83). -/
def firstPrimes : List Nat :=
  [2, 3, 5, 7, 11, 13, 17, 19, 23, 29, 31, 37, 41, 43, 47, 53, 59, 61, 67, 71,
   73, 79, 83, 89, 97, 101, 103, 107, 109, 113, 127, 131, 137, 139, 149, 151, 157, 163, 167, 173,
   179, 181, 191, 193, 197, 199, 211, 223, 227, 229, 233, 239, 241, 251, 257, 263, 269, 271, 277, 281,
   283, 293, 307, 311, 313, 317, 331, 337, 347, 349, 353, 359, 367, 373, 379, 383, 389, 397, 401, 409]

theorem filter_passesTrialDivision_eq_firstPrimes :
    (List.range 410).filter PassesTrialDivision = firstPrimes := by
  decide +kernel

/-- The prime with t primes below it is p_t. -/
theorem firstPrimes_getElem?_count {p : Nat} (hp : p.Prime) (few : Nat.count Nat.Prime p < 80) :
    firstPrimes[Nat.count Nat.Prime p]? = some p := by
  have all : Nat.count Nat.Prime 410 = 80 := by
    rw [count_prime_eq_count_passesTrialDivision (by decide), Nat.count, List.countP_eq_length_filter,
      filter_passesTrialDivision_eq_firstPrimes]
    rfl
  have below : p < 410 := Nat.lt_of_count_lt_count (few.trans_eq all.symm)
  rw [count_prime_eq_count_passesTrialDivision (by omega), ← filter_passesTrialDivision_eq_firstPrimes]
  exact getElem?_filter_range_count ((prime_iff_passesTrialDivision (by omega)).1 hp) below

end FirstPrimes

section RootFractions

/-- x holds the first w bits of the fraction of the k-th root of p, a root below 8: put below some integer part, x
makes the integer k-th root of p * 2^(k * w). -/
abbrev IsRootFraction (k p : Nat) {w : Nat} (x : Word w) : Prop :=
  ∃ i < 8, (i * 2 ^ w + x.toNat) ^ k ≤ p * 2 ^ (k * w) ∧ p * 2 ^ (k * w) < (i * 2 ^ w + x.toNat + 1) ^ k

variable {k p w : Nat} {x : Word w}

/-- The exact integer form of R83: x is the integer root modulo 2^w. -/
theorem IsRootFraction.exists_root (h : IsRootFraction k p x) :
    ∃ c : Nat, c ^ k ≤ p * 2 ^ (k * w) ∧ p * 2 ^ (k * w) < (c + 1) ^ k ∧ x.toNat = c % 2 ^ w := by
  obtain ⟨i, -, lower, upper⟩ := h
  exact ⟨i * 2 ^ w + x.toNat, lower, upper, by rw [Nat.mul_add_mod_of_lt x.isLt]⟩

/-- The exact integer form of R87: for square roots, the integer root is the library's. -/
theorem IsRootFraction.toNat_eq_sqrt (h : IsRootFraction 2 p x) :
    x.toNat = Nat.sqrt (p * 2 ^ (2 * w)) % 2 ^ w := by
  obtain ⟨c, lower, upper, hx⟩ := h.exists_root
  rw [hx, ← Nat.eq_sqrt'.2 ⟨lower, upper⟩]

/-- A table whose words are root fractions of the primes, in order, holds at index t that of the prime with t primes
below it. -/
theorem isRootFraction_of_zip {table : List (Word w)}
    (htable : ∀ e ∈ firstPrimes.zip table, IsRootFraction k e.1 e.2) {t : Nat} (hp : p.Prime)
    (count : Nat.count Nat.Prime p = t) (few : t < 80) (hx : table[t]? = some x) : IsRootFraction k p x := by
  subst count
  exact htable (p, x) (List.mem_of_getElem? (List.getElem?_zip_eq_some.2 ⟨firstPrimes_getElem?_count hp few, hx⟩))

end RootFractions

section RomWords

/-- A ROM read within the table is the table's word. -/
theorem getElem?_k_eq_kRom {w t : Nat} {e : Engine w} (ht : t < e.k.length) : e.k[t]? = some (kRom e t) := by
  rw [kRom, List.getD_eq_getElem?_getD, List.getElem?_eq_getElem ht, Option.getD_some]

theorem k32_isRootFraction : ∀ e ∈ firstPrimes.zip k32, IsRootFraction 3 e.1 e.2 := by
  decide +kernel

theorem k64_isRootFraction : ∀ e ∈ firstPrimes.zip k64, IsRootFraction 3 e.1 e.2 := by
  decide +kernel

/-- The initial vector of SHA-256 belongs to the first eight primes. -/
theorem ivSha256_isRootFraction : ∀ e ∈ firstPrimes.zip ivSha256.toList, IsRootFraction 2 e.1 e.2 := by
  decide +kernel

/-- The initial vectors of SHA-512 and SHA-384, one after the other, belong to the first sixteen primes. -/
theorem iv64_isRootFraction :
    ∀ e ∈ firstPrimes.zip (ivSha512.toList ++ ivSha384.toList), IsRootFraction 2 e.1 e.2 := by
  decide +kernel

/-- K32 is the high halves of the first 64 words of K64. -/
theorem kRom_engine64_high : ∀ t < 64, (kRom engine64 t).extractLsb' 32 32 = kRom engine32 t := by
  decide +kernel

theorem ivSha384_low : ∀ i : Fin 8, ivSha384[i].extractLsb' 0 32 = ivSha224[i] := by
  decide +kernel

theorem ivSha512_high : ∀ i : Fin 8, ivSha512[i].extractLsb' 32 32 = ivSha256[i] := by
  decide +kernel

/-- The two variants of a family share no word of their initial vectors. -/
theorem iv_distinct : ∀ i : Fin 8, ivSha224[i] ≠ ivSha256[i] ∧ ivSha384[i] ≠ ivSha512[i] := by
  decide +kernel

end RomWords

/-- Settles O43: the word that stands beside a prime in the table is the fraction of its cube root, and gives the
integer root of R83. -/
theorem roundConstantsAreCubeRootFractions : Obligations.RoundConstantsAreCubeRootFractions := by
  have count_eq {n m : Nat} (small : n ≤ 23 ^ 2) (h : Nat.count PassesTrialDivision n = m) :
      Nat.count Nat.Prime n = m := (count_prime_eq_count_passesTrialDivision small).trans h
  have length32 : k32.length = 64 := rfl
  have length64 : k64.length = 80 := rfl
  refine ⟨length32, length64, count_eq (by decide) (by decide +kernel), count_eq (by decide) (by decide +kernel),
    count_eq (by decide) (by decide +kernel), fun p hp few => ?_, fun p hp few => ?_, kRom_engine64_high⟩
  · exact (isRootFraction_of_zip k32_isRootFraction hp rfl (by omega)
      (getElem?_k_eq_kRom (e := engine32) (few.trans_eq length32.symm))).exists_root
  · exact (isRootFraction_of_zip k64_isRootFraction hp rfl few
      (getElem?_k_eq_kRom (e := engine64) (few.trans_eq length64.symm))).exists_root

/-- Settles O44: the words of the 64-bit vectors stand beside the first sixteen primes, those of SHA-256 beside the
first eight; the words of SHA-224 are the low halves of those of SHA-384. -/
theorem initialVectorsAreSquareRootFractions : Obligations.InitialVectorsAreSquareRootFractions := by
  refine ⟨fun p i hp count => ?_, fun p i hp count => ?_, fun i => ?_⟩
  · have h256 : IsRootFraction 2 p ivSha256[i] :=
      isRootFraction_of_zip ivSha256_isRootFraction hp count (by omega) (by simp)
    have h512 : IsRootFraction 2 p ivSha512[i] :=
      isRootFraction_of_zip iv64_isRootFraction hp count (by omega) (by simp [List.getElem?_append_left])
    exact ⟨h256.toNat_eq_sqrt, h512.toNat_eq_sqrt⟩
  · have h384 : IsRootFraction 2 p ivSha384[i] :=
      isRootFraction_of_zip iv64_isRootFraction hp count (by omega) (by simp [List.getElem?_append_right])
    refine ⟨h384.toNat_eq_sqrt, ?_⟩
    rw [← ivSha384_low, BitVec.extractLsb'_toNat, Nat.shiftRight_zero, h384.toNat_eq_sqrt]
  · obtain ⟨distinct32, distinct64⟩ := iv_distinct i
    exact ⟨distinct32, distinct64, ivSha384_low i, ivSha512_high i⟩

end Sys2Proof.Machine

/-! PROOFS. The padding and length encoder (41_padding.md): how many zero bytes it adds and how many blocks it makes
(R101, R102), and the padded blocks byte by byte (R103). -/

namespace Sys2Proof.Machine

/-- z, the number of zero bytes of the padding of an r-byte remainder (R101). -/
def padZeros (fam : Fam) (r : Nat) : Nat := padBlockCount fam r * blockBytes fam - lengthBytes fam - (r + 1)

theorem padBytes_eq_append (fam : Fam) (rem : List Byte) (len : Nat) :
    padBytes fam rem len =
      rem ++ [0x80] ++ List.replicate (padZeros fam rem.length) 0x00 ++ bytesBE len (lengthBytes fam) := rfl

theorem lengthBytes_lt_blockBytes (fam : Fam) : lengthBytes fam < blockBytes fam := by cases fam <;> decide

theorem padBlockCount_pos (fam : Fam) (r : Nat) : 0 < padBlockCount fam r := by
  unfold padBlockCount
  split_ifs <;> decide

section Zeros

variable {fam : Fam} {r : Nat} (short : r < blockBytes fam)
include short

/-- The padding fills its blocks exactly: the zeros reach up to the length field. -/
theorem add_padZeros_add_lengthBytes :
    r + 1 + padZeros fam r + lengthBytes fam = padBlockCount fam r * blockBytes fam := by
  have field := lengthBytes_lt_blockBytes fam
  unfold padZeros padBlockCount
  split_ifs <;> omega

/-- A second block is begun only when the first cannot hold the length field, so the zeros never fill a block. -/
theorem padZeros_lt_blockBytes : padZeros fam r < blockBytes fam := by
  unfold padZeros padBlockCount
  split_ifs <;> omega

/-- The congruence of R101. -/
theorem padZeros_modEq : r + 1 + padZeros fam r ≡ blockBytes fam - lengthBytes fam [MOD blockBytes fam] := by
  refine Nat.ModEq.add_right_cancel' (lengthBytes fam) ?_
  rw [add_padZeros_add_lengthBytes short, Nat.sub_add_cancel (lengthBytes_lt_blockBytes fam).le]
  exact (Nat.mul_mod_left _ _).trans (Nat.mod_self _).symm

/-- No fewer zeros meet the congruence of R101: two solutions below B are equal. -/
theorem not_modEq_of_lt_padZeros {y : Nat} (fewer : y < padZeros fam r) :
    ¬ r + 1 + y ≡ blockBytes fam - lengthBytes fam [MOD blockBytes fam] := by
  intro solves
  have bound := padZeros_lt_blockBytes short
  have same : y ≡ padZeros fam r [MOD blockBytes fam] := (solves.trans (padZeros_modEq short).symm).add_left_cancel' _
  exact fewer.ne (same.eq_of_lt_of_lt (fewer.trans bound) bound)

/-- The number of zeros is R101's formula under the mathematical mod. -/
theorem padZeros_eq_emod :
    (padZeros fam r : Int) = ((blockBytes fam : Int) - lengthBytes fam - r - 1) % blockBytes fam := by
  have fills : ((r + 1 + padZeros fam r + lengthBytes fam : Nat) : Int) = (padBlockCount fam r * blockBytes fam : Nat) :=
    congrArg _ (add_padZeros_add_lengthBytes short)
  push_cast at fills
  have whole : (blockBytes fam : Int) - lengthBytes fam - r - 1 =
      padZeros fam r + (1 - padBlockCount fam r) * blockBytes fam := by
    linarith
  rw [whole, Int.add_mul_emod_self_right,
    Int.emod_eq_of_lt (Int.natCast_nonneg _) (Int.ofNat_lt.2 (padZeros_lt_blockBytes short))]

end Zeros

@[simp] theorem pad_length (fam : Fam) (rem : List Byte) (len : Nat) :
    (pad fam rem len).length = padBlockCount fam rem.length := chunks_length _ _ _

/-- Settles O47: the zeros fill the blocks exactly and are fewer than B, so they are the least solution of R101's
congruence. -/
theorem paddingUsesTheFewestZeros : Obligations.PaddingUsesTheFewestZeros := by
  intro fam rem len short
  refine ⟨padZeros fam rem.length, padBytes_eq_append fam rem len, padZeros_eq_emod short, padZeros_modEq short,
    fun y fewer => not_modEq_of_lt_padZeros short fewer, ?fills, ?count⟩
  case fills => rw [pad_length, add_padZeros_add_lengthBytes short]
  case count =>
    rw [pad_length, padBlockCount]
    split_ifs with fits
    · exact .inl ⟨rfl, fits⟩
    · exact .inr ⟨rfl, by omega⟩

section PaddedBytes

variable {fam : Fam} {rem : List Byte} (short : rem.length < blockBytes fam) (len : Nat)

/-- The 0x80 byte needs no bound on the remainder. -/
theorem padBytes_getElem?_length : (padBytes fam rem len)[rem.length]? = some 0x80 := by
  simp [padBytes]

/-- The first block is the front of the padded remainder. -/
theorem pad_getD_zero : (pad fam rem len).getD 0 [] = (padBytes fam rem len).take (blockBytes fam) := by
  obtain ⟨k, hk⟩ := Nat.exists_eq_succ_of_ne_zero (padBlockCount_pos fam rem.length).ne'
  rw [pad, hk]
  rfl

include short

/-- The padded remainder by index (R103): remainder, 0x80, zeros up to the length field, length field. -/
theorem padBytes_getElem? {i : Nat} (inside : i < padBlockCount fam rem.length * blockBytes fam) :
    (padBytes fam rem len)[i]? = some
      (if i < rem.length then rem.getD i 0
        else if i = rem.length then 0x80
        else if i < padBlockCount fam rem.length * blockBytes fam - lengthBytes fam then 0x00
        else (bytesBE len (lengthBytes fam)).getD
          (i - (padBlockCount fam rem.length * blockBytes fam - lengthBytes fam)) 0) := by
  have fills := add_padZeros_add_lengthBytes short
  have front : (rem ++ [(0x80 : Byte)]).length = rem.length + 1 := List.length_append
  have body : (rem ++ [0x80] ++ List.replicate (padZeros fam rem.length) (0x00 : Byte)).length =
      padBlockCount fam rem.length * blockBytes fam - lengthBytes fam := by
    rw [List.length_append, front, List.length_replicate]
    omega
  split_ifs with inRem atMark inZeros
  · rw [padBytes_eq_append, List.append_assoc, List.append_assoc, List.getElem?_append_left inRem,
      List.getD_eq_getElem?_getD, List.getElem?_eq_getElem inRem, Option.getD_some]
  · rw [atMark, padBytes_getElem?_length]
  · rw [padBytes_eq_append, List.getElem?_append_left (by omega), List.getElem?_append_right (by omega),
      List.getElem?_replicate, if_pos (by omega)]
  · have inField : i - (padBlockCount fam rem.length * blockBytes fam - lengthBytes fam) <
        (bytesBE len (lengthBytes fam)).length := by
      rw [bytesBE_length]
      omega
    rw [padBytes_eq_append, List.getElem?_append_right (by omega), body, List.getD_eq_getElem?_getD,
      List.getElem?_eq_getElem inField, Option.getD_some]

theorem pad_flatten : (pad fam rem len).flatten = padBytes fam rem len := by
  rw [pad, chunks_flatten, ← padBytes_length short len, List.take_length]

theorem pad_block_length : ∀ b ∈ pad fam rem len, b.length = blockBytes fam :=
  chunks_block_length _ _ _ (padBytes_length short len).ge

end PaddedBytes

/-- Settles O48: the blocks joined are the padded remainder, whose bytes are read by index; r < B puts the 0x80 byte in
the first block. -/
theorem paddedBlocksHoldTheRemainderAndTheLength : Obligations.PaddedBlocksHoldTheRemainderAndTheLength := by
  intro fam rem len short _
  refine ⟨pad_length fam rem len, pad_block_length short len, ?mark, fun i inside => ?bytes⟩
  case mark =>
    rw [pad_getD_zero, List.getD_eq_getElem?_getD, List.getElem?_take_of_lt short, padBytes_getElem?_length,
      Option.getD_some]
  case bytes =>
    rw [pad_flatten short]
    exact padBytes_getElem? short len inside

end Sys2Proof.Machine

/-! PROOFS. The message-schedule expander (42_message_schedule.md): the small-sigma functions (R121 to R124), the first
sixteen words (R125) and the recurrence of the later ones (R126, R127). -/

namespace Sys2Proof.Machine

section SmallSigma

variable {w : Nat}

/-- The two shifts of a rotation reach no common bit, so each bit of the rotation is a bit of one of them. -/
theorem rotr_xor (x y : Word w) (n : Nat) : rotr (x ^^^ y) n = rotr x n ^^^ rotr y n := by
  ext i hi
  simp only [rotr, BitVec.getElem_or, BitVec.getElem_xor, BitVec.getElem_ushiftRight, BitVec.getElem_shiftLeft,
    BitVec.getLsbD_xor]
  by_cases low : i < w - n
  · simp [low]
  · have above : ∀ z : Word w, z.getLsbD (n + i) = false := fun z => BitVec.getLsbD_of_ge z _ (by omega)
    simp [low, above]

theorem shr_xor (x y : Word w) (n : Nat) : shr (x ^^^ y) n = shr x n ^^^ shr y n :=
  BitVec.ushiftRight_xor_distrib x y n

/-- Every function of the shape of σ0 and σ1 is linear, whatever its amounts. -/
theorem smallSigma_xor (amounts : Nat × Nat × Nat) (x y : Word w) :
    smallSigma amounts (x ^^^ y) = smallSigma amounts x ^^^ smallSigma amounts y := by
  simp only [smallSigma, rotr_xor, shr_xor]
  ac_rfl

theorem sigma0_xor (e : Engine w) (x y : Word w) : sigma0 e (x ^^^ y) = sigma0 e x ^^^ sigma0 e y :=
  smallSigma_xor _ x y

theorem sigma1_xor (e : Engine w) (x y : Word w) : sigma1 e (x ^^^ y) = sigma1 e x ^^^ sigma1 e y :=
  smallSigma_xor _ x y

end SmallSigma

/-- Settles O50: the formulas are the engines' amounts of R120, linearity is that of the common shape, and the corner
values are computed. -/
theorem smallSigmaFunctions : Obligations.SmallSigmaFunctions := by
  refine ⟨fun _ => rfl, fun _ => rfl, fun _ => rfl, fun _ => rfl, fun x y => ⟨sigma0_xor _ x y, sigma1_xor _ x y⟩,
    fun x y => ⟨sigma0_xor _ x y, sigma1_xor _ x y⟩, ?corners⟩
  decide

section Schedule

variable {w : Nat}

/-- A stretch of bytes inside a block, read one byte at a time. -/
theorem take_drop_eq_map_getD {m : List Byte} {start n : Nat} (inside : start + n ≤ m.length) :
    (m.drop start).take n = (List.range n).map fun j => m.getD (start + j) 0 := by
  apply List.ext_getElem
  · simp only [List.length_take, List.length_drop, List.length_map, List.length_range]
    omega
  · intro j hj _
    have hj : start + j < m.length := by
      simp only [List.length_take, List.length_drop] at hj
      omega
    simp [hj]

/-- Word t of a whole block is the BE word of its w/8 bytes (R125). -/
theorem blockWords_getElem? {m : List Byte} (whole : m.length = 16 * (w / 8)) {t : Nat} (ht : t < 16) :
    (blockWords w m)[t]? =
      some (wordOfBytes w ((List.range (w / 8)).map fun j => m.getD (t * (w / 8) + j) 0)) := by
  have inside : t * (w / 8) + w / 8 ≤ m.length := by
    rw [whole, ← Nat.succ_mul]
    exact Nat.mul_le_mul_right _ ht
  rw [blockWords, List.getElem?_map, List.getElem?_range ht, Option.map_some, take_drop_eq_map_getD inside]

/-- A schedule starts with the words it was extended from. -/
theorem extendSchedule_take_length (e : Engine w) (n : Nat) (ws : List (Word w)) :
    (extendSchedule e n ws).take ws.length = ws := by
  apply List.ext_getElem?
  intro t
  by_cases ht : t < ws.length
  · rw [List.getElem?_take_of_lt ht, extendSchedule_getElem?_of_lt e n ws t ht]
  · rw [List.getElem?_take, if_neg ht, List.getElem?_eq_none (by omega)]

/-- Every word that an extension adds is the next word after the ones before it (R126). -/
theorem extendSchedule_getElem?_of_ge (e : Engine w) (n : Nat) (ws : List (Word w)) {t : Nat} (old : ws.length ≤ t)
    (ht : t < ws.length + n) :
    (extendSchedule e n ws)[t]? = some (nextWord e ((extendSchedule e n ws).take t)) := by
  induction n generalizing ws with
  | zero => omega
  | succ n ih =>
    rcases old.eq_or_lt with rfl | later
    · rw [extendSchedule_getElem?_length, extendSchedule_take_length]
    · have grown : (ws ++ [nextWord e ws]).length = ws.length + 1 := by simp
      exact ih (ws ++ [nextWord e ws]) (by omega) (by omega)

/-- The next word after the first t words of a schedule, by its indices in the schedule (R126). -/
theorem nextWord_take (e : Engine w) (ws : List (Word w)) {t : Nat} (first : 16 ≤ t) (ht : t ≤ ws.length) :
    nextWord e (ws.take t) =
      sigma1 e (ws.getD (t - 2) 0) + ws.getD (t - 7) 0 + sigma0 e (ws.getD (t - 15) 0) + ws.getD (t - 16) 0 := by
  have before : ∀ i, 0 < i → i ≤ 16 → (ws.take t).getD (t - i) 0 = ws.getD (t - i) 0 := fun i _ _ => by
    rw [List.getD_eq_getElem?_getD, List.getElem?_take_of_lt (by omega), ← List.getD_eq_getElem?_getD]
  rw [nextWord, List.length_take, Nat.min_eq_left ht, before 2 (by omega) (by omega), before 7 (by omega) (by omega),
    before 15 (by omega) (by omega), before 16 (by omega) (by omega)]

section Expand

variable (e : Engine w) (m : List Byte)

theorem expand_getElem?_of_lt {t : Nat} (ht : t < 16) : (expand e m)[t]? = (blockWords w m)[t]? :=
  extendSchedule_getElem?_of_lt e _ _ t (by rwa [blockWords_length])

theorem expand_length (enough : 16 ≤ e.rounds) : (expand e m).length = e.rounds := by
  rw [expand, extendSchedule_length, blockWords_length, Nat.add_sub_cancel' enough]

/-- The recurrence of R126 at every index from 16 up to the engine's round count. -/
theorem expand_getElem?_of_ge {t : Nat} (first : 16 ≤ t) (ht : t < e.rounds) :
    (expand e m)[t]? = some
      (sigma1 e ((expand e m).getD (t - 2) 0) + (expand e m).getD (t - 7) 0
        + sigma0 e ((expand e m).getD (t - 15) 0) + (expand e m).getD (t - 16) 0) := by
  have length := expand_length e m (by omega)
  rw [← nextWord_take e (expand e m) first (by omega)]
  exact extendSchedule_getElem?_of_ge e _ _ (by rwa [blockWords_length]) (by rw [blockWords_length]; omega)

end Expand

/-- An engine of at least sixteen rounds has the schedule of R127. -/
theorem scheduleFollowsTheRecurrence {e : Engine w} (enough : 16 ≤ e.rounds) : ScheduleFollowsTheRecurrence w e := by
  intro m whole
  refine ⟨expand_length e m enough, fun t ht => ?_, fun t first ht => expand_getElem?_of_ge e m first ht⟩
  rw [expand_getElem?_of_lt e m ht, blockWords_getElem? whole ht]

end Schedule

/-- Settles O53: the schedule of an engine of any width and round count, at 64 and at 80 rounds. -/
theorem scheduleWordsFollowTheRecurrence : Obligations.ScheduleWordsFollowTheRecurrence :=
  ⟨rfl, rfl, scheduleFollowsTheRecurrence (by decide), scheduleFollowsTheRecurrence (by decide)⟩

end Sys2Proof.Machine

/-! PROOFS. The compression function (43_compression.md): the big-sigma functions (R141 to R144), the gates Ch and Maj
(R145, R146), one round (R147, R148) and the rounds of a block in order (R150, R151). -/

namespace Sys2Proof.Machine

section BigSigma

variable {w : Nat}

/-- Every function of the shape of Σ0 and Σ1 is linear, because each of its rotations is. -/
theorem bigSigma_xor (amounts : Nat × Nat × Nat) (x y : Word w) :
    bigSigma amounts (x ^^^ y) = bigSigma amounts x ^^^ bigSigma amounts y := by
  simp only [bigSigma, rotr_xor]
  ac_rfl

theorem bigSigma0_xor (e : Engine w) (x y : Word w) : bigSigma0 e (x ^^^ y) = bigSigma0 e x ^^^ bigSigma0 e y :=
  bigSigma_xor _ x y

theorem bigSigma1_xor (e : Engine w) (x y : Word w) : bigSigma1 e (x ^^^ y) = bigSigma1 e x ^^^ bigSigma1 e y :=
  bigSigma_xor _ x y

end BigSigma

/-- Settles O51: the formulas are the engines' amounts of R140, linearity is that of the common shape, and the corner
values and examples are computed. -/
theorem bigSigmaFunctions : Obligations.BigSigmaFunctions := by
  refine ⟨fun _ => rfl, fun _ => rfl, fun _ => rfl, fun _ => rfl,
    fun x y => ⟨bigSigma0_xor _ x y, bigSigma1_xor _ x y⟩, fun x y => ⟨bigSigma0_xor _ x y, bigSigma1_xor _ x y⟩, ?corners⟩
  decide

section Choice

variable {w : Nat} (e f g : Word w)

/-- A bit of Ch is chosen between two bits by the bit of e (R145). -/
theorem getElem_ch {i : Nat} (hi : i < w) : (ch e f g)[i] = if e[i] then f[i] else g[i] := by
  simp only [ch, BitVec.getElem_xor, BitVec.getElem_and, BitVec.getElem_not]
  cases e[i] <;> simp

/-- The choice holds at every index: past the word all bits are 0. -/
theorem getLsbD_ch (i : Nat) : (ch e f g).getLsbD i = if e.getLsbD i then f.getLsbD i else g.getLsbD i := by
  by_cases hi : i < w
  · simpa only [BitVec.getLsbD_eq_getElem hi] using getElem_ch e f g hi
  · have past : ∀ x : Word w, x.getLsbD i = false := fun x => BitVec.getLsbD_of_ge x i (by omega)
    simp [past]

@[simp] theorem ch_allOnes : ch (BitVec.allOnes w) f g = f := by
  ext i hi
  simp [getElem_ch]

@[simp] theorem ch_zero : ch 0#w f g = g := by
  ext i hi
  simp [getElem_ch]

@[simp] theorem ch_self : ch e f f = f := by
  ext i hi
  simp [getElem_ch]

end Choice

section Majority

variable {w : Nat} (a b c : Word w)

/-- A bit of Maj is 1 where at least two of the three bits are (R146). -/
theorem getLsbD_maj (i : Nat) : (maj a b c).getLsbD i =
    decide (2 ≤ (a.getLsbD i).toNat + (b.getLsbD i).toNat + (c.getLsbD i).toNat) := by
  have majority : ∀ p q r : Bool, ((p && q) ^^ (p && r) ^^ (q && r)) = decide (2 ≤ p.toNat + q.toNat + r.toNat) := by
    decide
  simp only [maj, BitVec.getLsbD_xor, BitVec.getLsbD_and, majority]

theorem maj_swap_left : maj a b c = maj b a c := by
  simp only [maj]
  ac_rfl

theorem maj_swap_right : maj a b c = maj a c b := by
  simp only [maj]
  ac_rfl

/-- Two equal arguments are the majority; the swaps bring them to the front. -/
@[simp] theorem maj_self_left : maj a a c = a := by
  rw [maj, BitVec.and_self, BitVec.xor_assoc, BitVec.xor_self, BitVec.xor_zero]

@[simp] theorem maj_self_outer : maj a c a = a := by rw [maj_swap_right, maj_self_left]

@[simp] theorem maj_self_right : maj c a a = a := by rw [maj_swap_left, maj_self_outer]

end Majority

/-- Settles O52: the corner cases of Ch are read off its bits, those of Maj are its value on two equal arguments, and
the examples are computed. -/
theorem choiceAndMajorityGates : Obligations.ChoiceAndMajorityGates := by
  refine ⟨fun w e f g => ⟨rfl, getLsbD_ch e f g, ch_allOnes f g, ch_zero f g, ch_self e f⟩,
    fun w a b c => ⟨rfl, getLsbD_maj a b c, maj_self_left a c, maj_self_outer a c, maj_self_right a c,
      maj_self_left 0 c, maj_self_left _ c, maj_swap_left a b c, maj_swap_right a b c⟩, ?examples⟩
  decide

/-- Settles O55: the round's two sums with the amounts of the engine put in, each over the old registers. -/
theorem oneRoundUpdatesAllRegistersAtOnce : Obligations.OneRoundUpdatesAllRegistersAtOnce :=
  ⟨fun _ _ _ => rfl, fun _ _ _ => rfl⟩

section Compress

variable {w : Nat}

/-- The rounds of a block are a fold over t = 0, 1, ..., each from the registers the one before left (R151). -/
theorem runRounds_eq_foldl (e : Engine w) (ws : List (Word w)) (n : Nat) (s : Working w) :
    runRounds e ws n s = (List.range n).foldl (fun s t => round e t s (ws.getD t 0)) s := by
  induction n with
  | zero => rfl
  | succ n ih => rw [runRounds, ih, List.range_succ, List.foldl_append, List.foldl_cons, List.foldl_nil]

/-- The final addition register by register (R150). -/
theorem addWorking_eq (h : Vector (Word w) 8) (s : Working w) : addWorking h s =
    #v[h[0] + s.a, h[1] + s.b, h[2] + s.c, h[3] + s.d, h[4] + s.e, h[5] + s.f, h[6] + s.g, h[7] + s.h] := by
  ext i hi
  rw [addWorking_getElem]
  interval_cases i <;> rfl

/-- An engine of any width and round count runs its rounds in order. -/
theorem compressRunsTheRounds (e : Engine w) : CompressRunsTheRounds w e := by
  intro h m
  rw [compress, runRounds_eq_foldl, addWorking_eq]
  rfl

end Compress

/-- Settles O56: the compression of an engine of any width and round count, at 64 and at 80 rounds. -/
theorem compressRunsTheRoundsInOrder : Obligations.CompressRunsTheRoundsInOrder :=
  ⟨rfl, rfl, compressRunsTheRounds engine32, compressRunsTheRounds engine64⟩

end Sys2Proof.Machine

/-! PROOFS. The digest serializer (44_digest.md): how many bytes each word gives and which they are (R170), and the
digest length of each variant (R172). -/

namespace Sys2Proof.Machine

section UniformBlocks

variable {α β : Type} {f : α → List β} {n : Nat}

/-- Blocks of n entries each fill n places per block. -/
theorem length_flatMap_of_uniform (uniform : ∀ a, (f a).length = n) (l : List α) :
    (l.flatMap f).length = l.length * n := by
  simp only [List.length_flatMap, uniform, List.map_const', List.sum_replicate_nat]

/-- Entry k of block i stands at i * n + k when every block has n entries. -/
theorem flatMap_getElem?_of_uniform (uniform : ∀ a, (f a).length = n) (l : List α) (i : Nat) {k : Nat} (hk : k < n) :
    (l.flatMap f)[i * n + k]? = l[i]?.bind fun a => (f a)[k]? := by
  induction l generalizing i with
  | nil => rfl
  | cons a l ih =>
    rw [List.flatMap_cons]
    cases i with
    | zero =>
      rw [Nat.zero_mul, Nat.zero_add, List.getElem?_append_left (by rwa [uniform])]
      rfl
    | succ i =>
      have past : (i + 1) * n + k = (f a).length + (i * n + k) := by
        rw [uniform]
        ring
      rw [past, List.getElem?_append_right (Nat.le_add_right _ _), Nat.add_sub_cancel_left, ih i]
      rfl

end UniformBlocks

@[simp] theorem wordBytes_length (fam : Fam) (x : BitVec 64) : (wordBytes fam x).length = wordBits fam / 8 :=
  bytesBE_length _ _

/-- Byte k of a state word, from the most significant end of the family's word (R170). -/
theorem wordBytes_getElem? (fam : Fam) (x : BitVec 64) {k : Nat} (hk : k < wordBits fam / 8) :
    (wordBytes fam x)[k]? = some (x.extractLsb' (wordBits fam - 8 * (k + 1)) 8) := by
  have whole : 8 * (wordBits fam / 8) = wordBits fam := by cases fam <;> rfl
  rw [wordBytes, bytesBE_getElem? _ hk, Nat.mul_sub, whole, ← Nat.shiftRight_eq_div_pow]
  rfl

theorem digestWords_le (v : Variant) : digestWords v ≤ 8 := by cases v <;> decide

theorem serialize_length (v : Variant) (h : Vector (BitVec 64) 8) :
    (serialize v h).length = digestWords v * (wordBits (famOf v) / 8) := by
  rw [serialize, length_flatMap_of_uniform (wordBytes_length (famOf v)), List.length_take, Vector.length_toList,
    Nat.min_eq_left (digestWords_le v)]

/-- Byte k of an emitted word i stands at i*w/8 + k (R170). -/
theorem serialize_getElem? (v : Variant) (h : Vector (BitVec 64) 8) {i k : Nat} (hi : i < 8)
    (emitted : i < digestWords v) (hk : k < wordBits (famOf v) / 8) :
    (serialize v h)[i * (wordBits (famOf v) / 8) + k]? =
      some (h[i].extractLsb' (wordBits (famOf v) - 8 * (k + 1)) 8) := by
  have word : (h.toList.take (digestWords v))[i]? = some h[i] := by
    rw [List.getElem?_take_of_lt emitted, Vector.getElem?_toList, Vector.getElem?_eq_getElem hi]
  rw [serialize, flatMap_getElem?_of_uniform (wordBytes_length (famOf v)) _ _ hk, word]
  exact wordBytes_getElem? (famOf v) h[i] hk

/-- Settles O23: each word gives w/8 bytes, so byte k of word i is found by its block. -/
theorem digestBytesAreTheWordsBigEndian : Obligations.DigestBytesAreTheWordsBigEndian :=
  ⟨⟨rfl, rfl, rfl, rfl⟩, fun v h =>
    ⟨serialize_length v h, fun _ _ hi emitted hk => serialize_getElem? v h hi emitted hk⟩⟩

/-- Settles O22: the length of the digest is Nd(v) * w/8, for each of the four variants. -/
theorem digestLengthDependsOnTheVariantAlone : Obligations.DigestLengthDependsOnTheVariantAlone := by
  intro v h
  rw [serialize_length]
  cases v <;> rfl

end Sys2Proof.Machine

/-! PROOFS. What a command leaves of the session and of the error state (45_commands.md section 1): acceptance and
rejection (R181), and the session transitions (R182). -/

namespace Sys2Proof.Machine

section AcceptedCommands

variable (n : BitVec 4) (din : BitVec 64) (s : State)

@[simp] theorem afterUpdate_sess : (afterUpdate n din s).sess = .accum := rfl

@[simp] theorem afterUpdate_lasterr : (afterUpdate n din s).lasterr = .ok := rfl

@[simp] theorem afterUpdate_sticky : (afterUpdate n din s).sticky = s.sticky := by
  simp [afterUpdate]

@[simp] theorem afterFinalize_sess : (afterFinalize s).sess = .final := rfl

@[simp] theorem afterFinalize_lasterr : (afterFinalize s).lasterr = .ok := rfl

@[simp] theorem afterFinalize_sticky : (afterFinalize s).sticky = s.sticky := by
  simp [afterFinalize]

end AcceptedCommands

/-- Settles O26: INIT and the commands that pass their checks end by `accept`; the others end by `reject`, with a code
that is never OK. -/
theorem rejectionsChangeOnlyTheErrorState : Obligations.RejectionsChangeOnlyTheErrorState := by
  refine ⟨fun i s t ran => ?_, fun s => rfl⟩
  obtain ⟨v, -, init⟩ | ⟨n, din, -, -, rfl⟩ | ⟨-, -, rfl⟩ | ⟨n, din, code, -, failed, rfl⟩ | ⟨code, -, failed, rfl⟩ :=
    exec_cases ran
  · cases init
    exact .inl ⟨rfl, rfl⟩
  · exact .inl ⟨afterUpdate_lasterr n din s, afterUpdate_sticky n din s⟩
  · exact .inl ⟨afterFinalize_lasterr s, afterFinalize_sticky s⟩
  · exact .inr ⟨code, updateError_ne_ok failed, rfl⟩
  · exact .inr ⟨code, sessionError_ne_ok failed, rfl⟩

section Session

variable {n : BitVec 4} {s : State} (din : BitVec 64) (short : n.toNat ≤ 8)

include short

/-- UPDATE checks the session first, then the length (R185). -/
theorem updateError_eq_or :
    updateError n s = (sessionError s.sess).or (if lengthFits n.toNat s then none else some .length) := by
  rw [updateError, if_neg (Nat.not_lt.2 short)]
  cases sessionError s.sess <;> rfl

/-- Where no session is open, UPDATE and FINALIZE are rejected with the same code, and SESS stays. -/
theorem exec_of_sessionError_eq_some {code : ErrCode} (closed : sessionError s.sess = some code) :
    (∃ t, exec (.update n din) s = .next t ∧ t.sess = s.sess ∧ t.lasterr = code) ∧
    (∃ t, exec .finalize s = .next t ∧ t.sess = s.sess ∧ t.lasterr = code) := by
  have failed : updateError n s = some code := by rw [updateError_eq_or short, closed, Option.some_or]
  exact ⟨⟨_, exec_update_rejected failed, rfl, rfl⟩, ⟨_, exec_finalize_rejected closed, rfl, rfl⟩⟩

/-- In an open session an UPDATE moves SESS to ACCUM, or is rejected for its length alone. -/
theorem exec_update_of_open (isOpen : s.Open) :
    ∃ t, exec (.update n din) s = .next t ∧
      ((t.sess = .accum ∧ t.lasterr = .ok) ∨ (t.sess = s.sess ∧ t.lasterr = .length)) := by
  have onlyLength : updateError n s = if lengthFits n.toNat s then none else some .length := by
    rw [updateError_eq_or short, (sessionError_eq_none_iff s.sess).2 isOpen, Option.none_or]
  by_cases fits : lengthFits n.toNat s
  · rw [if_pos fits] at onlyLength
    exact ⟨_, exec_update_accepted onlyLength, .inl ⟨afterUpdate_sess n din s, afterUpdate_lasterr n din s⟩⟩
  · rw [if_neg fits] at onlyLength
    exact ⟨_, exec_update_rejected onlyLength, .inr ⟨reject_sess .length s, reject_lasterr .length s⟩⟩

end Session

/-- Settles O28: IDLE and FINAL are the rows where the session check fails, EMPTY and ACCUM those where it passes. -/
theorem sessionTransitionTable : Obligations.SessionTransitionTable := by
  intro s n din short
  refine ⟨fun v => ⟨_, rfl, rfl, rfl⟩, ⟨_, rfl, rfl, rfl⟩, fun idle => ?_, fun isOpen => ?_, fun final => ?_⟩
  · have rejected := exec_of_sessionError_eq_some (s := s) (code := .notInit) din short (by rw [idle]; rfl)
    rwa [idle] at rejected
  · exact ⟨exec_update_of_open din short isOpen,
      _, exec_finalize_accepted ((sessionError_eq_none_iff s.sess).2 isOpen), afterFinalize_sess s,
        afterFinalize_lasterr s⟩
  · have rejected := exec_of_sessionError_eq_some (s := s) (code := .finalized) din short (by rw [final]; rfl)
    rwa [final] at rejected

end Sys2Proof.Machine

/-! PROOFS. The rejections of UPDATE and FINALIZE (60_exceptions.md): NOT_INIT and FINALIZED where no session is open
(R215, R216), and LENGTH in an open one (R217). -/

namespace Sys2Proof.Machine

/-- Where no session is open, UPDATE and FINALIZE leave the state to `reject` with the session's code (R215, R216). -/
theorem exec_eq_reject_of_sessionError {s : State} {code : ErrCode} (closed : sessionError s.sess = some code) :
    (∀ (n : BitVec 4) (din : BitVec 64), n.toNat ≤ 8 → exec (.update n din) s = .next (reject code s)) ∧
    exec .finalize s = .next (reject code s) := by
  refine ⟨fun n din short => exec_update_rejected ?_, exec_finalize_rejected closed⟩
  rw [updateError_eq_or short, closed, Option.some_or]

/-- Settles O24: IDLE is a session state whose check fails with NOT_INIT. -/
theorem nothingRunsBeforeInit : Obligations.NothingRunsBeforeInit :=
  fun _ idle => exec_eq_reject_of_sessionError (congrArg sessionError idle)

/-- Settles O25: FINAL is a session state whose check fails with FINALIZED, and `reject` does not write the digest. -/
theorem nothingRunsAfterFinalize : Obligations.NothingRunsAfterFinalize :=
  fun _ final => exec_eq_reject_of_sessionError (congrArg sessionError final)

section OpenSession

variable {s : State} (isOpen : s.Open)
include isOpen

/-- In an open session an UPDATE past the length field fails the length check (R217). -/
theorem updateError_eq_length {n : BitVec 4} (short : n.toNat ≤ 8)
    (exceeds : maxLen (famOf s.var) < s.len.toNat + 8 * n.toNat) : updateError n s = some .length := by
  have noFit : ¬ lengthFits n.toNat s := by simpa [lengthFits] using exceeds
  rw [updateError_eq_or short, (sessionError_eq_none_iff s.sess).2 isOpen, Option.none_or, if_neg noFit]

/-- A rejection changes nothing a later UPDATE checks: one that fits is accepted. -/
theorem exec_update_reject_of_fits (code : ErrCode) {m : BitVec 4} (d : BitVec 64) (short : m.toNat ≤ 8)
    (fits : s.len.toNat + 8 * m.toNat ≤ maxLen (famOf s.var)) :
    exec (.update m d) (reject code s) = .next (afterUpdate m d (reject code s)) :=
  exec_update_accepted ((updateError_eq_none_iff m (reject code s)).2 ⟨short, isOpen, fits⟩)

end OpenSession

/-- FINALIZE reads neither LASTERR nor STICKY and writes LASTERR: a rejection before it shows in STICKY alone. -/
theorem afterFinalize_reject (code : ErrCode) (s : State) :
    afterFinalize (reject code s) = { afterFinalize s with sticky := true } := rfl

/-- Settles O19: the length check is the one that fails, and the rejected state passes every check the state before it
passed and finalizes to the same digest. -/
theorem lengthOverflowIsRejectedWhole : Obligations.LengthOverflowIsRejectedWhole := by
  intro s n din isOpen short exceeds
  have noError : sessionError s.sess = none := (sessionError_eq_none_iff s.sess).2 isOpen
  refine ⟨reject .length s, exec_update_rejected (updateError_eq_length isOpen short exceeds), rfl,
    fun m d short' fits => ⟨_, exec_update_reject_of_fits isOpen .length d short' fits, afterUpdate_lasterr _ _ _⟩,
    afterFinalize s, afterFinalize (reject .length s), exec_finalize_accepted noError, exec_finalize_accepted noError,
    afterFinalize_lasterr _, ?digest, ?dlen⟩
  case digest => rw [afterFinalize_reject]
  case dlen => rw [afterFinalize_reject]

end Sys2Proof.Machine

/-! PROOFS. Command encoding, decoder against encoder (30_encoding.md): each undoes the other (R63, R65), and the
illegal words by the three lists of R66. -/

namespace Sys2Proof.Machine

/-- Settles O4: the word of each command holds its operand in the field the decoder reads. -/
theorem decodeInvertsEncode : Obligations.DecodeInvertsEncode := by
  intro i wellFormed
  cases i with
  | init v => exact decode_init_word 0 v
  | update n din => exact decode_encode_update din wellFormed
  | finalize => exact decode_finalize_word 0

section Decoded

variable {c : Command} {i : Instr} (decoded : decode c = .instr i)
include decoded

/-- The decoder gives no ill-formed command (R66). -/
theorem wellFormed_of_decode : i.WellFormed := by
  cases i with
  | init v => trivial
  | update n din =>
    obtain ⟨-, -, -, bound, rfl, -⟩ := (decode_eq_update_iff c n din).1 decoded
    exact bound
  | finalize => trivial

/-- A word that decodes is put together from its fields as the encoder puts it together (R61). -/
theorem encode_cmd_of_decode : (encode i).cmd = c.cmd := by
  cases i with
  | init v =>
    obtain ⟨op, reserved, rfl⟩ := (decode_eq_init_iff c v).1 decoded
    rw [encode, code_ofCode]
    exact (init_word_of_fields op reserved).symm
  | update n din =>
    obtain ⟨op, high, low, -, rfl, -⟩ := (decode_eq_update_iff c n din).1 decoded
    exact (update_word_of_fields op high low).symm
  | finalize => exact ((decode_eq_finalize_iff c).1 decoded).symm

end Decoded

/-- Settles O5: a word that decodes is its command's encoded word, so two words of one command are equal. -/
theorem eachLegalWordHasOneMeaning : Obligations.EachLegalWordHasOneMeaning :=
  fun _ _ decoded => ⟨wellFormed_of_decode decoded, encode_cmd_of_decode decoded,
    fun _ decoded' => (encode_cmd_of_decode decoded').symm.trans (encode_cmd_of_decode decoded)⟩

/-- The three lists of R66: the words that meet the condition of no row, by their op. -/
theorem exists_decode_eq_illegal_iff_lists (c : Command) :
    (∃ why, decode c = .illegal why) ↔
      (c.cmd.extractLsb' 0 4 ≠ 1 ∧ c.cmd.extractLsb' 0 4 ≠ 2 ∧ c.cmd.extractLsb' 0 4 ≠ 3) ∨
      (c.cmd.extractLsb' 0 4 = 1 ∧ c.cmd.extractLsb' 6 26 ≠ 0) ∨
      (c.cmd.extractLsb' 0 4 = 2 ∧ (c.cmd.extractLsb' 12 20 ≠ 0 ∨ c.cmd.extractLsb' 4 4 ≠ 0)) ∨
      (c.cmd.extractLsb' 0 4 = 3 ∧ c.cmd.extractLsb' 4 28 ≠ 0) ∨
      (c.cmd.extractLsb' 0 4 = 2 ∧ 9 ≤ (c.cmd.extractLsb' 8 4).toNat) := by
  rw [exists_decode_eq_illegal_iff_no_row, ne_eq, eq_three_iff_fields]
  generalize c.cmd.extractLsb' 0 4 = op
  by_cases init : op = 1#4
  · simp [init]
  by_cases update : op = 2#4
  · simp [update, Nat.succ_le_iff]
    tauto
  by_cases finalize : op = 3#4
  · simp [finalize]
  · simp [init, update, finalize]

end Sys2Proof.Machine

/-! PROOFS. One step (45_commands.md section 1, 70_reset_and_hazards.md section 1): what `step` answers for each input
(R180, R194, R230), and that it always answers (R210). -/

namespace Sys2Proof.Machine

section Step

variable {s : State} {rest : List Input} {c : Command}

theorem step_of_no_input (noInput : s.inputs = []) : step s = .next s := by
  simp only [step, takeInput, noInput]

theorem step_of_decode_instr (presented : s.inputs = .command c :: rest) {i : Instr} (decoded : decode c = .instr i) :
    step s = exec i { s with inputs := rest } := by
  simp only [step, takeInput, presented, decoded]

theorem step_of_decode_illegal (presented : s.inputs = .command c :: rest) {why : IllegalWord}
    (decoded : decode c = .illegal why) : step s = .next (reject .illegal { s with inputs := rest }) := by
  simp only [step, takeInput, presented, decoded, execIllegal]

/-- Reset between commands and reset while one is in progress do the same (R230). -/
theorem step_of_reset (asserted : s.inputs = .reset :: rest ∨ ∃ c, s.inputs = .resetDuring c :: rest) :
    step s = .next (resetBlock { s with inputs := rest }) := by
  obtain between | ⟨c, during⟩ := asserted
  · simp only [step, takeInput, between]
  · simp only [step, takeInput, during]

end Step

/-- Settles O6: a word whose op has a row is illegal by the row's other conditions; its step is
`reject`. -/
theorem illegalWordsAreRejectedAlone : Obligations.IllegalWordsAreRejectedAlone :=
  fun c _ _ => ⟨exists_decode_eq_illegal_iff_lists c,
    fun ⟨_, decoded⟩ presented => step_of_decode_illegal presented decoded⟩

/-- Settles O7: the meaning of each command is the arm of `exec` it selects. -/
theorem stepRunsTheDecodedCommand : Obligations.StepRunsTheDecodedCommand :=
  fun _ _ _ presented => ⟨fun _ => step_of_decode_instr presented, fun _ => step_of_decode_illegal presented,
    fun _ => step_of_decode_instr presented, fun _ _ => step_of_decode_instr presented, step_of_decode_instr presented⟩

theorem decode_of_decodeTableWord {nbits w : Nat} {i : Instr} (reads : decodeTableWord nbits w = some i) :
    decode (commandOfTableWord nbits w) = .instr i := by
  unfold decodeTableWord at reads
  split at reads
  · next j decoded => rw [decoded, Option.some.inj reads]
  · cases reads

/-- Settles O8: the word is presented in front of the other inputs, so it is the input taken, which leaves `s`. -/
theorem tableWordIsRunNext : Obligations.TableWordIsRunNext :=
  fun s nbits w _ reads =>
    step_of_decode_instr (s := s.withFetchWord nbits w) rfl (decode_of_decodeTableWord reads)

/-- Settles O9: with no input to take, `step` answers the state itself. -/
theorem nothingHappensWithoutInput : Obligations.NothingHappensWithoutInput :=
  fun _ => step_of_no_input

/-- No command traps (R210). -/
theorem exec_answers (i : Instr) (s : State) : ∃ t, exec i s = .next t := by
  cases i with
  | init v => exact ⟨_, rfl⟩
  | update n din =>
    cases failed : updateError n s with
    | none => exact ⟨_, exec_update_accepted failed⟩
    | some code => exact ⟨_, exec_update_rejected failed⟩
  | finalize =>
    cases failed : sessionError s.sess with
    | none => exact ⟨_, exec_finalize_accepted failed⟩
    | some code => exact ⟨_, exec_finalize_rejected failed⟩

/-- Settles O10: the only inputs a step could fail on are the decoded commands, and `exec` answers each. -/
theorem everyStepAnswersANextState : Obligations.EveryStepAnswersANextState := by
  intro s
  match presented : s.inputs with
  | [] => exact ⟨s, step_of_no_input presented⟩
  | .command c :: rest =>
    cases decoded : decode c with
    | instr i =>
      rw [step_of_decode_instr presented decoded]
      exact exec_answers i _
    | illegal why => exact ⟨_, step_of_decode_illegal presented decoded⟩
  | .reset :: rest => exact ⟨_, step_of_reset (.inl presented)⟩
  | .resetDuring c :: rest => exact ⟨_, step_of_reset (.inr ⟨c, presented⟩)⟩

/-- Settles O11: both forms of reset answer `resetBlock`, whose fields are the reset values. -/
theorem resetSetsTheResetValues : Obligations.ResetSetsTheResetValues :=
  fun _ _ asserted => ⟨_, step_of_reset asserted, rfl, rfl, rfl, rfl,
    fun i => Vector.getElem_replicate i.isLt, rfl, rfl, rfl, rfl, rfl⟩

/-- Settles O12: the fields of the reset state, and the ports computed from them. -/
theorem resetStateHoldsTheResetValues : Obligations.ResetStateHoldsTheResetValues :=
  ⟨rfl, rfl, fun i => Vector.getElem_replicate i.isLt, rfl, rfl, rfl, rfl, rfl, rfl, rfl, rfl⟩

/-- The decoder hands din on to UPDATE alone (R60). -/
theorem decode_congr_din {cmd : BitVec 32} {din : BitVec 64} (din' : BitVec 64)
    (noUpdate : ∀ n d, decode ⟨cmd, din⟩ ≠ .instr (.update n d)) : decode ⟨cmd, din'⟩ = decode ⟨cmd, din⟩ := by
  unfold decode at noUpdate ⊢
  split_ifs at noUpdate ⊢
  pick_goal 3
  · exact absurd rfl (noUpdate _ _)
  all_goals rfl

/-- Settles O13: a word that is no UPDATE decodes alike under any din, which a step reads through the decoder alone. -/
theorem onlyUpdateReadsDin : Obligations.OnlyUpdateReadsDin := by
  intro s rest cmd din din' noUpdate
  have same := decode_congr_din din' noUpdate
  cases decoded : decode ⟨cmd, din⟩ with
  | instr i => rw [step_of_decode_instr rfl decoded, step_of_decode_instr rfl (same.trans decoded)]
  | illegal why => rw [step_of_decode_illegal rfl decoded, step_of_decode_illegal rfl (same.trans decoded)]

end Sys2Proof.Machine

/-! PROOFS. The schedule against its block (20_memory.md R45) and in a sliding window (42_message_schedule.md R128). -/

namespace Sys2Proof.Machine

section BlockBytes

variable {w : Nat}

/-- The word of its bytes gives each byte back, the first at the most significant end. -/
theorem wordOfBytes_extractLsb' {s : List Byte} (whole : w = 8 * s.length) {j : Nat} (hj : j < s.length) :
    (wordOfBytes w s).extractLsb' (w - 8 * (j + 1)) 8 = s[j] := by
  have back : bytesBE (wordOfBytes w s).toNat s.length = s := by
    rw [wordOfBytes_toNat whole.ge, bytesBE_natOfBytes]
  have byte := bytesBE_getElem? (wordOfBytes w s).toNat hj
  rw [back, List.getElem?_eq_getElem hj, Nat.mul_sub, ← whole, ← Nat.shiftRight_eq_div_pow] at byte
  exact (Option.some.inj byte).symm

/-- Byte j of a whole block is in word j div (w/8) of its schedule, at any width of whole bytes (R45). -/
theorem block_getElem?_eq_expand (e : Engine w) {m : List Byte} (bytes : w = 8 * (w / 8))
    (whole : m.length = 16 * (w / 8)) {j : Nat} (hj : j < m.length) :
    m[j]? = some (((expand e m).getD (j / (w / 8)) 0).extractLsb' (w - 8 * (j % (w / 8) + 1)) 8) := by
  have width : 0 < w / 8 := by omega
  have word : j / (w / 8) < 16 := Nat.div_lt_of_lt_mul (by rw [Nat.mul_comm]; omega)
  have place : j % (w / 8) < w / 8 := Nat.mod_lt _ width
  have index : j / (w / 8) * (w / 8) + j % (w / 8) = j := Nat.div_add_mod' _ _
  rw [List.getD_eq_getElem?_getD, expand_getElem?_of_lt e m word, blockWords_getElem? whole word, Option.getD_some,
    wordOfBytes_extractLsb' (by simpa using bytes) (by simpa using place)]
  simp [index, hj]

end BlockBytes

/-- Settles O54: a byte of a block by the schedule word it is in, for the words of 4 and of 8 bytes. -/
theorem eachBlockByteIsInOneScheduleWord : Obligations.EachBlockByteIsInOneScheduleWord := by
  refine fun m j => ⟨fun whole hj => ?_, fun whole hj => ?_⟩
  · rw [block_getElem?_eq_expand engine32 rfl whole (whole ▸ hj), show 24 - 8 * (j % 4) = 32 - 8 * (j % 4 + 1) by omega]
  · rw [block_getElem?_eq_expand engine64 rfl whole (whole ▸ hj), show 56 - 8 * (j % 8) = 64 - 8 * (j % 8 + 1) by omega]

section Window

variable {w : Nat} (e : Engine w)

/-- The window after a schedule of t words: its last sixteen. -/
def lastSixteen (ws : List (Word w)) : List (Word w) := ws.drop (ws.length - 16)

/-- The windowed sum reads the words the recurrence reads: t-2, t-7, t-15 and t-16 (R126). -/
theorem nextWord_eq_window {ws : List (Word w)} (enough : 16 ≤ ws.length) :
    nextWord e ws = sigma1 e ((lastSixteen ws).getD 14 0) + (lastSixteen ws).getD 9 0
      + sigma0 e ((lastSixteen ws).getD 1 0) + (lastSixteen ws).getD 0 0 := by
  have read (i : Nat) (hi : i ≤ 16) : (lastSixteen ws).getD (16 - i) 0 = ws.getD (ws.length - i) 0 := by
    rw [lastSixteen, List.getD_eq_getElem?_getD, List.getElem?_drop, List.getD_eq_getElem?_getD,
      show ws.length - 16 + (16 - i) = ws.length - i by omega]
  rw [nextWord, ← read 2 (by decide), ← read 7 (by decide), ← read 15 (by decide), ← read 16 (by decide)]

/-- A word more moves the window by one. -/
theorem lastSixteen_append_singleton {ws : List (Word w)} (enough : 16 ≤ ws.length) (x : Word w) :
    lastSixteen (ws ++ [x]) = (lastSixteen ws).drop 1 ++ [x] := by
  rw [lastSixteen, lastSixteen, List.drop_drop, List.length_append, List.length_singleton,
    List.drop_append_of_le_length (by omega), show ws.length + 1 - 16 = ws.length - 16 + 1 by omega]

/-- n rounds from the window of a schedule are the rounds of the schedule extended by n words. -/
theorem windowRounds_lastSixteen (n : Nat) {ws : List (Word w)} (enough : 16 ≤ ws.length) (s : Working w) :
    windowRounds e n ws.length (lastSixteen ws) (runRounds e ws ws.length s) =
      runRounds e (extendSchedule e n ws) (ws.length + n) s := by
  induction n generalizing ws with
  | zero => rfl
  | succ n ih =>
    have grown : (ws ++ [nextWord e ws]).length = ws.length + 1 := List.length_append
    have next : round e ws.length (runRounds e ws ws.length s) (nextWord e ws) =
        runRounds e (ws ++ [nextWord e ws]) (ws.length + 1) s := by
      rw [runRounds, List.getD_eq_getElem?_getD, List.getElem?_concat_length, Option.getD_some]
      congr 1
      refine runRounds_congr e _ _ s _ fun t ht => ?_
      rw [List.getD_append _ _ _ _ ht]
    have later := ih (ws := ws ++ [nextWord e ws]) (by omega)
    rw [grown, lastSixteen_append_singleton enough, Nat.add_right_comm] at later
    rw [windowRounds, ← nextWord_eq_window e enough, next, extendSchedule]
    exact later

/-- The windowed realization of an engine of at least sixteen rounds is its compression (R128, R155). -/
theorem compress_eq_windowRounds (enough : 16 ≤ e.rounds) (h : Vector (Word w) 8) (m : List Byte) :
    compress e h m = addWorking h (windowRounds e (e.rounds - 16) 16 (blockWords w m)
      (runRounds e (blockWords w m) 16 (Working.ofHash h))) := by
  have length : (blockWords w m).length = 16 := blockWords_length m
  have window : lastSixteen (blockWords w m) = blockWords w m := by
    rw [lastSixteen, length, Nat.sub_self, List.drop_zero]
  have rounds := windowRounds_lastSixteen e (e.rounds - 16) length.ge (Working.ofHash h)
  rw [window, length, Nat.add_sub_cancel' enough] at rounds
  rw [rounds, compress, expand]

end Window

/-- Settles O58: the windowed realization of an engine of any width and round count, at 64 and at 80 rounds. -/
theorem windowedScheduleIsEquivalent : Obligations.WindowedScheduleIsEquivalent :=
  ⟨compress_eq_windowRounds engine32 (by decide), compress_eq_windowRounds engine64 (by decide)⟩

end Sys2Proof.Machine

/-! PROOFS. The high halves of H in the 32-bit family (43_compression.md R152, R156). -/

namespace Sys2Proof.Machine

/-- H[i][63:32] = 0 for every i (10_state.md R34 (f)). -/
abbrev HighHalvesZero (h : Vector (BitVec 64) 8) : Prop := ∀ i : Fin 8, h[i].extractLsb' 32 32 = 0

/-- Words stored zero-extended have zero high halves. -/
theorem highHalvesZero_map_setWidth (h : Vector (BitVec 32) 8) : HighHalvesZero (h.map (BitVec.setWidth 64)) := by
  intro i
  ext j hj
  simp

theorem compressH_highHalvesZero (h : Vector (BitVec 64) 8) (m : List Byte) : HighHalvesZero (compressH .fam32 h m) :=
  highHalvesZero_map_setWidth _

theorem compressBlocks_highHalvesZero {h : Vector (BitVec 64) 8} (zero : HighHalvesZero h) (ms : List (List Byte)) :
    HighHalvesZero (compressBlocks .fam32 h ms) := by
  cases ms using List.reverseRecOn with
  | nil => exact zero
  | append_singleton ms m =>
    rw [compressBlocks, List.foldl_concat]
    exact compressH_highHalvesZero _ m

/-- Settles O57: the results are stored zero-extended, and the engine is given the low halves alone. -/
theorem family32KeepsTheHighHalvesZero : Obligations.Family32KeepsTheHighHalvesZero := by
  refine fun h h' m => ⟨compressH_highHalvesZero h m, fun low => compressH_fam32_congr m ?_⟩
  refine Vector.ext fun i hi => ?_
  have narrow (x : BitVec 64) : x.setWidth 32 = x.extractLsb' 0 32 := BitVec.setWidth_eq_extractLsb' (by decide)
  rw [Vector.getElem_map, Vector.getElem_map, narrow, narrow]
  exact low ⟨i, hi⟩

end Sys2Proof.Machine

/-! PROOFS. What INIT, UPDATE and FINALIZE leave in each field (45_commands.md R183 to R191): the rules that later
proofs read a command's next state by. -/

namespace Sys2Proof.Machine

/-- The next state of INIT (45_commands.md R183). -/
def afterInit (v : Variant) (s : State) : State :=
  accept { s with
    var := v
    h := ivRom v
    bufcnt := 0
    len := 0
    digest := Vector.replicate 64 0x00
    dlen := 0
    dvalid := false
    sess := .empty }

section AfterInit

variable (v : Variant) (s : State)

theorem exec_init : exec (.init v) s = .next (afterInit v s) := rfl

@[simp] theorem afterInit_sess : (afterInit v s).sess = .empty := rfl
@[simp] theorem afterInit_var : (afterInit v s).var = v := rfl
@[simp] theorem afterInit_h : (afterInit v s).h = ivRom v := rfl
@[simp] theorem afterInit_buf : (afterInit v s).buf = s.buf := rfl
@[simp] theorem afterInit_bufcnt : (afterInit v s).bufcnt = 0 := rfl
@[simp] theorem afterInit_len : (afterInit v s).len = 0 := rfl
@[simp] theorem afterInit_digest : (afterInit v s).digest = Vector.replicate 64 0x00 := rfl
@[simp] theorem afterInit_dlen : (afterInit v s).dlen = 0 := rfl
@[simp] theorem afterInit_dvalid : (afterInit v s).dvalid = false := rfl
@[simp] theorem afterInit_lasterr : (afterInit v s).lasterr = .ok := rfl
@[simp] theorem afterInit_sticky : (afterInit v s).sticky = s.sticky := rfl
@[simp] theorem afterInit_inputs : (afterInit v s).inputs = s.inputs := rfl

/-- INIT keeps nothing of what it writes, so a second one changes nothing. -/
theorem afterInit_afterInit : afterInit v (afterInit v s) = afterInit v s := rfl

end AfterInit

/-- Settles O14: the fields of the next state of INIT; the 32-bit initial vectors are loaded zero-extended. -/
theorem initStartsAFreshSession : Obligations.InitStartsAFreshSession := by
  refine fun v s => ⟨afterInit v s, exec_init v s, rfl, fun i => ?_, rfl, rfl, fun i => Vector.getElem_replicate i.isLt,
    rfl, rfl, rfl, rfl, rfl, rfl, rfl, exec_init v (afterInit v s)⟩
  cases v <;> simp [ivRom]

/-- Nothing is buffered where BUFCNT is 0. -/
theorem remainder_eq_nil {s : State} (empty : s.bufcnt = 0) : remainder s = [] := by
  rw [remainder, empty]
  rfl

section AfterUpdate

variable (n : BitVec 4) (din : BitVec 64) (s : State)

@[simp] theorem afterUpdate_var : (afterUpdate n din s).var = s.var := by simp [afterUpdate]
@[simp] theorem afterUpdate_h : (afterUpdate n din s).h = (absorb (dinBytes n din) s).h := rfl
@[simp] theorem afterUpdate_buf : (afterUpdate n din s).buf = (absorb (dinBytes n din) s).buf := rfl
@[simp] theorem afterUpdate_bufcnt : (afterUpdate n din s).bufcnt = (absorb (dinBytes n din) s).bufcnt := rfl
@[simp] theorem afterUpdate_digest : (afterUpdate n din s).digest = s.digest := by simp [afterUpdate]
@[simp] theorem afterUpdate_dlen : (afterUpdate n din s).dlen = s.dlen := by simp [afterUpdate]
@[simp] theorem afterUpdate_dvalid : (afterUpdate n din s).dvalid = s.dvalid := by simp [afterUpdate]
@[simp] theorem afterUpdate_inputs : (afterUpdate n din s).inputs = s.inputs := by simp [afterUpdate]

@[simp] theorem remainder_afterUpdate : remainder (afterUpdate n din s) = remainder (absorb (dinBytes n din) s) := rfl

@[simp] theorem afterUpdate_len : (afterUpdate n din s).len = BitVec.ofNat 128 (s.len.toNat + 8 * n.toNat) := by
  simp [afterUpdate]

end AfterUpdate

/-- Every length field is within the 128 bits of LEN (10_state.md R24). -/
theorem maxLen_lt (fam : Fam) : maxLen fam < 2 ^ 128 := by cases fam <;> decide

section FittingUpdate

variable {n : BitVec 4} {s : State} (din : BitVec 64)

/-- LEN counts the bytes exactly where the length field holds the sum (R185). -/
theorem afterUpdate_len_toNat (fits : s.len.toNat + 8 * n.toNat ≤ maxLen (famOf s.var)) :
    (afterUpdate n din s).len.toNat = s.len.toNat + 8 * n.toNat := by
  rw [afterUpdate_len, BitVec.toNat_ofNat, Nat.mod_eq_of_lt (fits.trans_lt (maxLen_lt _))]

/-- In an open session an UPDATE that fits passes every check (R185). -/
theorem exec_update_of_fits (isOpen : s.Open) (short : n.toNat ≤ 8)
    (fits : s.len.toNat + 8 * n.toNat ≤ maxLen (famOf s.var)) :
    exec (.update n din) s = .next (afterUpdate n din s) :=
  exec_update_accepted ((updateError_eq_none_iff n s).2 ⟨short, isOpen, fits⟩)

end FittingUpdate

section AfterFinalize

variable (s : State)

@[simp] theorem afterFinalize_var : (afterFinalize s).var = s.var := by simp [afterFinalize]
@[simp] theorem afterFinalize_h : (afterFinalize s).h =
    compressBlocks (famOf s.var) s.h (pad (famOf s.var) (remainder s) s.len.toNat) := by simp [afterFinalize]
@[simp] theorem afterFinalize_buf : (afterFinalize s).buf = s.buf := by simp [afterFinalize]
@[simp] theorem afterFinalize_bufcnt : (afterFinalize s).bufcnt = 0 := rfl
@[simp] theorem afterFinalize_len : (afterFinalize s).len = s.len := by simp [afterFinalize]
@[simp] theorem afterFinalize_dvalid : (afterFinalize s).dvalid = true := by simp [afterFinalize]
@[simp] theorem afterFinalize_inputs : (afterFinalize s).inputs = s.inputs := by simp [afterFinalize]

/-- The digest is that of the H the FINALIZE leaves (R190). -/
theorem afterFinalize_digest_getElem (i : Fin 64) :
    (afterFinalize s).digest[i] = (serialize s.var (afterFinalize s).h).getD i.val 0x00 := by
  rw [afterFinalize_digest, afterFinalize_h]
  exact Vector.getElem_ofFn i.isLt

@[simp] theorem afterFinalize_dlen :
    (afterFinalize s).dlen = BitVec.ofNat 7 (serialize s.var (afterFinalize s).h).length := by
  rw [afterFinalize_h]
  simp [afterFinalize]

/-- DLEN counts the digest bytes exactly: no digest is longer than 64 bytes. -/
theorem afterFinalize_dlen_toNat :
    (afterFinalize s).dlen.toNat = (serialize s.var (afterFinalize s).h).length := by
  have short : (serialize s.var (afterFinalize s).h).length < 2 ^ 7 := by
    rw [serialize_length]
    cases s.var <;> decide
  rw [afterFinalize_dlen, BitVec.toNat_ofNat, Nat.mod_eq_of_lt short]

theorem exec_finalize_of_open {s : State} (isOpen : s.Open) : exec .finalize s = .next (afterFinalize s) :=
  exec_finalize_accepted ((sessionError_eq_none_iff s.sess).2 isOpen)

end AfterFinalize

/-- Settles O21: the fields of the next state of FINALIZE, and the digest length of each variant. -/
theorem finalizeWritesTheDigest : Obligations.FinalizeWritesTheDigest := by
  refine fun s isOpen => ⟨afterFinalize s, exec_finalize_of_open isOpen, afterFinalize_h s,
    afterFinalize_digest_getElem s, ?length, afterFinalize_dvalid s, rfl, rfl, rfl, afterFinalize_len s,
    afterFinalize_var s, afterFinalize_buf s, afterFinalize_sticky s, afterFinalize_inputs s⟩
  case length =>
    rw [afterFinalize_dlen_toNat]
    exact digestLengthDependsOnTheVariantAlone s.var _

end Sys2Proof.Machine

/-! PROOFS. UPDATE (45_commands.md R185 to R188): what it leaves unchanged, where its bytes go in BUF (R186), which
lanes it reads (20_memory.md R43), and up to which length it is accepted (R188). -/

namespace Sys2Proof.Machine

/-- Settles O15: an UPDATE that passes the checks, field by field. -/
theorem updateCompletesWhereItFits : Obligations.UpdateCompletesWhereItFits :=
  fun s n din isOpen short fits => ⟨afterUpdate n din s, exec_update_of_fits din isOpen short fits,
    afterUpdate_len_toNat din fits, rfl, rfl, afterUpdate_var n din s, afterUpdate_digest n din s,
    afterUpdate_dlen n din s, afterUpdate_dvalid n din s, afterUpdate_sticky n din s, afterUpdate_inputs n din s⟩

/-- Bytes that do not pass the end of the block are stored from BUFCNT up, and no other byte of BUF changes (R186). -/
theorem absorb_buf_getElem {bs : List Byte} {s : State}
    (room : s.bufcnt.toNat + bs.length ≤ blockBytes (famOf s.var)) (i : Fin 128) :
    (absorb bs s).buf[i] =
      if s.bufcnt.toNat ≤ i.val ∧ i.val < s.bufcnt.toNat + bs.length then bs.getD (i.val - s.bufcnt.toNat) 0
      else s.buf[i] := by
  induction bs using List.reverseRecOn with
  | nil => simp
  | append_singleton bs b ih =>
    rw [List.length_append, List.length_singleton] at room ⊢
    obtain ⟨-, -, count⟩ := absorb_within bs s (by omega)
    have before := ih (by omega)
    simp only [Fin.getElem_fin] at before ⊢
    simp only [absorb_append, absorb_cons, absorb_nil, absorbByte_buf, Vector.getElem_set, before, count]
    by_cases here : s.bufcnt.toNat + bs.length = i.val
    · rw [if_pos here, if_pos (by omega), ← here, Nat.add_sub_cancel_left, List.getD_eq_getElem?_getD,
        List.getElem?_concat_length, Option.getD_some]
    · rw [if_neg here]
      split_ifs with old new
      · rw [List.getD_append _ _ _ _ (by omega)]
      · omega
      · omega
      · rfl

/-- Bytes that complete a block and go on: one compression, of the buffered bytes and the first of them (R186, R187). -/
theorem absorb_across {front back : List Byte} {s : State} (nonempty : front ≠ [])
    (fills : s.bufcnt.toNat + front.length = blockBytes (famOf s.var))
    (short : back.length < blockBytes (famOf s.var)) :
    (absorb (front ++ back) s).h = compressH (famOf s.var) s.h (remainder s ++ front) ∧
    (absorb (front ++ back) s).bufcnt.toNat = back.length ∧
    ∀ i : Fin 128, (absorb (front ++ back) s).buf[i] =
      if i.val < back.length then back.getD i.val 0
      else if s.bufcnt.toNat ≤ i.val ∧ i.val < blockBytes (famOf s.var) then front.getD (i.val - s.bufcnt.toNat) 0
      else s.buf[i] := by
  obtain ⟨-, hash, empty⟩ := absorb_completes front s nonempty fills
  have count : (absorb front s).bufcnt.toNat = 0 := by rw [empty]; rfl
  have room : (absorb front s).bufcnt.toNat + back.length < blockBytes (famOf (absorb front s).var) := by
    rwa [count, absorb_var, Nat.zero_add]
  obtain ⟨-, hash', count'⟩ := absorb_within back (absorb front s) room
  rw [absorb_append]
  refine ⟨hash'.trans hash, by rw [count', count, Nat.zero_add], fun i => ?_⟩
  rw [absorb_buf_getElem room.le, absorb_buf_getElem fills.le, count, fills]
  simp only [Nat.zero_le, true_and, Nat.zero_add, Nat.sub_zero]

theorem dinBytes_getD (n : BitVec 4) (din : BitVec 64) {j : Nat} (hj : j < n.toNat) :
    (dinBytes n din).getD j 0 = dinLane din j := by
  rw [List.getD_eq_getElem?_getD, dinBytes_getElem?, if_pos hj, Option.getD_some]

/-- Settles O16: the bytes stay within the block, so H and the rest of BUF keep their values. -/
theorem updateWithinABlockOnlyBuffers : Obligations.UpdateWithinABlockOnlyBuffers := by
  intro s n din isOpen short fits room
  have room : s.bufcnt.toNat + (dinBytes n din).length < blockBytes (famOf s.var) := by rwa [dinBytes_length]
  obtain ⟨-, hash, count⟩ := absorb_within (dinBytes n din) s room
  refine ⟨afterUpdate n din s, exec_update_of_fits din isOpen short fits, hash, ?count, fun i => ?_⟩
  case count => rw [afterUpdate_bufcnt, count, dinBytes_length]
  · rw [afterUpdate_buf, absorb_buf_getElem room.le, dinBytes_length]
    split_ifs with written
    · rw [dinBytes_getD n din (by omega), dinLane]
    · rfl

/-- The first k bytes of a command, and the others. -/
theorem dinBytes_eq_append {n : BitVec 4} (din : BitVec 64) {k : Nat} (hk : k ≤ n.toNat) :
    dinBytes n din =
      (List.range k).map (dinLane din) ++ (List.range (n.toNat - k)).map fun j => dinLane din (k + j) := by
  obtain ⟨r, hr⟩ := Nat.exists_eq_add_of_le hk
  rw [dinBytes, hr, List.range_add, List.map_append, List.map_map, Nat.add_sub_cancel_left]
  rfl

theorem map_range_getD {f : Nat → Byte} {j k : Nat} (hj : j < k) : ((List.range k).map f).getD j 0 = f j := by
  rw [List.getD_eq_getElem?_getD, List.getElem?_map, List.getElem?_range hj, Option.map_some, Option.getD_some]

/-- Settles O17: the first bytes of the command complete the block; the others start the next, which eight bytes do not
complete. -/
theorem updateAcrossABlockCompressesItOnce : Obligations.UpdateAcrossABlockCompressesItOnce := by
  intro s n din isOpen short fits before across
  have big : 64 ≤ blockBytes (famOf s.var) := by cases famOf s.var <;> decide
  have parts := dinBytes_eq_append din (n := n) (k := blockBytes (famOf s.var) - s.bufcnt.toNat) (by omega)
  have rest : n.toNat - (blockBytes (famOf s.var) - s.bufcnt.toNat) =
      s.bufcnt.toNat + n.toNat - blockBytes (famOf s.var) := by omega
  rw [rest] at parts
  have bytes := absorb_across
    (front := (List.range (blockBytes (famOf s.var) - s.bufcnt.toNat)).map (dinLane din))
    (back := (List.range (s.bufcnt.toNat + n.toNat - blockBytes (famOf s.var))).map
      fun j => dinLane din (blockBytes (famOf s.var) - s.bufcnt.toNat + j))
    (s := s) (List.ne_nil_of_length_pos (by rw [List.length_map, List.length_range]; omega))
    (by rw [List.length_map, List.length_range]; omega) (by rw [List.length_map, List.length_range]; omega)
  rw [← parts] at bytes
  obtain ⟨hash, count, buffer⟩ := bytes
  refine ⟨afterUpdate n din s, exec_update_of_fits din isOpen short fits, hash, ?count, fun i => ?_⟩
  case count => rw [afterUpdate_bufcnt, count, List.length_map, List.length_range]
  · rw [afterUpdate_buf, buffer, List.length_map, List.length_range]
    split_ifs with begun filled
    · rw [map_range_getD begun, dinLane]
    · rw [map_range_getD (by omega), dinLane]
    · rfl

/-- Settles O18: an UPDATE reads din through the lanes below n alone. -/
theorem unusedLanesAreIgnored : Obligations.UnusedLanesAreIgnored := by
  intro s n din din' agree
  have same : dinBytes n din = dinBytes n din' := List.map_congr_left fun j hj => agree j (List.mem_range.1 hj)
  simp only [exec, execUpdate, same]

/-- In an open session an UPDATE of at most eight bytes is accepted exactly where the length field holds the sum. -/
theorem exec_update_lasterr_ok_iff {s : State} {n : BitVec 4} (din : BitVec 64) (isOpen : s.Open)
    (short : n.toNat ≤ 8) :
    ∃ t : State, exec (.update n din) s = .next t ∧
      (t.lasterr = .ok ↔ s.len.toNat + 8 * n.toNat ≤ maxLen (famOf s.var)) := by
  by_cases fits : s.len.toNat + 8 * n.toNat ≤ maxLen (famOf s.var)
  · exact ⟨_, exec_update_of_fits din isOpen short fits, iff_of_true rfl fits⟩
  · exact ⟨_, exec_update_rejected (updateError_eq_length isOpen short (Nat.lt_of_not_le fits)),
      iff_of_false (by rw [reject_lasterr]; decide) fits⟩

/-- Settles O20: LEN is a multiple of 8 below a power of two, and the bound of the check is the field's own. -/
theorem greatestLengthIsEightBelowTheField : Obligations.GreatestLengthIsEightBelowTheField := by
  intro s inv
  have whole := inv.len_whole_bytes
  have bound := inv.len_fits
  refine ⟨fun fam => ?_, fun fam => ?_, fun isOpen n din short => ?_⟩
  · rw [fam, show maxLen .fam32 = 2 ^ 64 - 1 from rfl] at bound
    omega
  · rw [fam, show maxLen .fam64 = 2 ^ 128 - 1 from rfl] at bound
    omega
  · have accepted := exec_update_lasterr_ok_iff din isOpen short
    cases fam : famOf s.var <;> rwa [fam] at accepted

end Sys2Proof.Machine

/-! PROOFS. The rules of the whole machine: everything a step can do, by the input it takes, and from it what changes
the error state (60_exceptions.md), VAR and SESS (45_commands.md R184), H (10_state.md R21) and the digest
(70_reset_and_hazards.md R236). -/

namespace Sys2Proof.Machine

section LastError

variable {s t : State}

/-- The order of UPDATE's checks: NOT_INIT, FINALIZED, LENGTH (R218). -/
theorem exec_update_lasterr {n : BitVec 4} {din : BitVec 64} (short : n.toNat ≤ 8)
    (ran : exec (.update n din) s = .next t) :
    t.lasterr = if s.sess = .idle then .notInit
      else if s.sess = .final then .finalized
      else if s.len.toNat + 8 * n.toNat > maxLen (famOf s.var) then .length else .ok := by
  by_cases idle : s.sess = .idle
  · rw [(exec_eq_reject_of_sessionError (congrArg sessionError idle)).1 n din short] at ran
    rw [if_pos idle, ← Host.Outcome.next.inj ran, reject_lasterr]
  by_cases final : s.sess = .final
  · rw [(exec_eq_reject_of_sessionError (congrArg sessionError final)).1 n din short] at ran
    rw [if_neg idle, if_pos final, ← Host.Outcome.next.inj ran, reject_lasterr]
  have isOpen : s.Open := by
    revert idle final
    unfold State.Open
    cases s.sess <;> decide
  rw [if_neg idle, if_neg final]
  split_ifs with exceeds
  · rw [exec_update_rejected (updateError_eq_length isOpen short exceeds)] at ran
    rw [← Host.Outcome.next.inj ran, reject_lasterr]
  · rw [exec_update_of_fits din isOpen short (Nat.le_of_not_lt exceeds)] at ran
    rw [← Host.Outcome.next.inj ran, afterUpdate_lasterr]

/-- The order of FINALIZE's checks: NOT_INIT, FINALIZED (R218). -/
theorem exec_finalize_lasterr (ran : exec .finalize s = .next t) :
    t.lasterr = if s.sess = .idle then .notInit else if s.sess = .final then .finalized else .ok := by
  simp only [exec, execFinalize] at ran
  cases sess : s.sess <;> rw [sess] at ran <;> cases ran <;> rfl

end LastError

/-- Settles O27: an illegal word is rejected before the session is looked at, then each command's checks come in their
order. -/
theorem errorsAreReportedInPriorityOrder : Obligations.ErrorsAreReportedInPriorityOrder := by
  intro s t c rest presented ran
  cases decoded : decode c with
  | illegal why =>
    rw [step_of_decode_illegal presented decoded] at ran
    rw [← Host.Outcome.next.inj ran, reject_lasterr]
  | instr i =>
    rw [step_of_decode_instr presented decoded] at ran
    cases i with
    | init v => rw [← Host.Outcome.next.inj ran, accept_lasterr]
    | update n din => exact exec_update_lasterr (s := { s with inputs := rest }) (wellFormed_of_decode decoded) ran
    | finalize => exact exec_finalize_lasterr (s := { s with inputs := rest }) ran

/-- Everything a step from `s` to `t` can be, by the input it takes and what is done with it. A rejected command is
one case, whatever its code. -/
inductive StepEffect (s t : State) : Prop
  | idle (unchanged : t = s)
  | init (c : Command) (rest : List Input) (v : Variant) (presented : s.inputs = .command c :: rest)
      (decoded : decode c = .instr (.init v)) (result : t = afterInit v { s with inputs := rest })
  | update (c : Command) (rest : List Input) (n : BitVec 4) (din : BitVec 64)
      (presented : s.inputs = .command c :: rest) (decoded : decode c = .instr (.update n din)) (isOpen : s.Open)
      (fits : s.len.toNat + 8 * n.toNat ≤ maxLen (famOf s.var))
      (result : t = afterUpdate n din { s with inputs := rest })
  | finalize (c : Command) (rest : List Input) (presented : s.inputs = .command c :: rest)
      (decoded : decode c = .instr .finalize) (isOpen : s.Open) (result : t = afterFinalize { s with inputs := rest })
  | rejected (rest : List Input) (code : ErrCode) (result : t = reject code { s with inputs := rest })
  | reset (rest : List Input) (asserted : s.inputs = .reset :: rest ∨ ∃ c, s.inputs = .resetDuring c :: rest)
      (result : t = resetBlock { s with inputs := rest })

theorem step_effect {s t : State} (ran : step s = .next t) : StepEffect s t := by
  obtain ⟨-, unchanged⟩ | ⟨c, rest, i, presented, decoded, ran⟩ | ⟨c, rest, why, -, -, result⟩ |
    ⟨rest, asserted, result⟩ := step_cases ran
  · exact .idle unchanged
  · obtain ⟨v, rfl, init⟩ | ⟨n, din, rfl, passed, result⟩ | ⟨rfl, passed, result⟩ | ⟨n, din, code, -, -, result⟩ |
      ⟨code, -, -, result⟩ := exec_cases ran
    · exact .init c rest v presented decoded (Host.Outcome.next.inj init).symm
    · obtain ⟨-, isOpen, fits⟩ := (updateError_eq_none_iff _ _).1 passed
      exact .update c rest n din presented decoded isOpen fits result
    · exact .finalize c rest presented decoded ((sessionError_eq_none_iff _).1 passed) result
    · exact .rejected rest code result
    · exact .rejected rest code result
  · exact .rejected rest .illegal result
  · exact .reset rest asserted result

/-- Settles O30: an accepted command keeps STICKY and a rejected one sets it. -/
theorem onlyResetClearsSticky : Obligations.OnlyResetClearsSticky := by
  intro s t ran set clear
  have cleared : t.sticky ≠ s.sticky := by rw [set, clear]; decide
  cases step_effect ran with
  | idle unchanged => exact absurd (congrArg State.sticky unchanged) cleared
  | init c rest v _ _ result => exact absurd (by rw [result, afterInit_sticky]) cleared
  | update c rest n din _ _ _ _ result => exact absurd (by rw [result, afterUpdate_sticky]) cleared
  | finalize c rest _ _ _ result => exact absurd (by rw [result, afterFinalize_sticky]) cleared
  | rejected rest code result => rw [result, reject_sticky] at clear; cases clear
  | reset rest asserted _ => exact ⟨rest, asserted⟩

/-- An open session is neither IDLE nor FINAL. -/
theorem State.Open.ne_idle_and_ne_final {s : State} (isOpen : s.Open) : s.sess ≠ .idle ∧ s.sess ≠ .final := by
  obtain empty | accum := isOpen
  · simp [empty]
  · simp [accum]

/-- Settles O31: UPDATE and FINALIZE are accepted in an open session alone, and keep VAR; a rejection changes neither
VAR nor SESS. -/
theorem onlyInitSelectsTheVariantAndLeavesFinal : Obligations.OnlyInitSelectsTheVariantAndLeavesFinal := by
  intro s t ran changes
  have kept : ¬(t.var = s.var ∧ (t.sess = s.sess ∨ s.Open)) := by
    rintro ⟨var, sess | isOpen⟩
    · simp [var, sess] at changes
    · simp [var, isOpen.ne_idle_and_ne_final] at changes
  cases step_effect ran with
  | idle unchanged => exact absurd ⟨congrArg State.var unchanged, .inl (congrArg State.sess unchanged)⟩ kept
  | init c rest v presented decoded result =>
    exact .inl ⟨c, rest, v, presented, decoded, by rw [result, afterInit_sess], by rw [result, afterInit_var]⟩
  | update c rest n din _ _ isOpen _ result => exact absurd ⟨by rw [result, afterUpdate_var], .inr isOpen⟩ kept
  | finalize c rest _ _ isOpen result => exact absurd ⟨by rw [result, afterFinalize_var], .inr isOpen⟩ kept
  | rejected rest code result =>
    exact absurd ⟨by rw [result, reject_var], .inl (by rw [result, reject_sess])⟩ kept
  | reset rest asserted _ => exact .inr ⟨rest, asserted⟩

/-- Settles O32: an UPDATE that completes no block leaves H as it is. -/
theorem hashStateChangesOnlyByInitAndCompression : Obligations.HashStateChangesOnlyByInitAndCompression := by
  intro s t _ ran changed
  cases step_effect ran with
  | idle unchanged => exact absurd (congrArg State.h unchanged) changed
  | init c rest v presented decoded _ => exact .inl ⟨c, rest, presented, .inl ⟨v, decoded⟩⟩
  | update c rest n din presented decoded isOpen _ result =>
    refine .inl ⟨c, rest, presented, .inr (.inl ⟨n, din, decoded, isOpen, ?_⟩)⟩
    by_contra within
    obtain ⟨-, hash, -⟩ := absorb_within (dinBytes n din) { s with inputs := rest }
      (by rw [dinBytes_length]; exact Nat.lt_of_not_le within)
    exact changed (by rw [result, afterUpdate_h, hash])
  | finalize c rest presented decoded isOpen _ => exact .inl ⟨c, rest, presented, .inr (.inr ⟨decoded, isOpen⟩)⟩
  | rejected rest code result => exact absurd (by rw [result, reject_h]) changed
  | reset rest asserted _ => exact .inr ⟨rest, asserted⟩

/-- Settles O33: in FINAL no session is open, so a command that is no INIT is rejected. -/
theorem theDigestLastsUntilInitOrReset : Obligations.TheDigestLastsUntilInitOrReset := by
  intro s t final ran
  have closed : ¬s.Open := fun isOpen => isOpen.ne_idle_and_ne_final.2 final
  cases step_effect ran with
  | idle unchanged =>
    subst unchanged
    exact .inl ⟨final, fun _ => rfl, rfl, rfl, rfl⟩
  | init c rest v presented decoded _ => exact .inr (.inl ⟨c, rest, v, presented, decoded⟩)
  | update c rest n din _ _ isOpen _ _ => exact absurd isOpen closed
  | finalize c rest _ _ isOpen _ => exact absurd isOpen closed
  | rejected rest code result =>
    subst result
    exact .inl ⟨final, fun _ => rfl, rfl, rfl, rfl⟩
  | reset rest asserted _ => exact .inr (.inr ⟨rest, asserted⟩)

end Sys2Proof.Machine

/-! PROOFS. The invariants between commands (10_state.md R34): reset meets them, and every command and reset keeps
them. -/

namespace Sys2Proof.Machine

/-- UPDATE changes H by compressions alone. -/
theorem exists_absorb_h_eq_compressBlocks (bs : List Byte) (s : State) :
    ∃ ms, (absorb bs s).h = compressBlocks (famOf s.var) s.h ms := by
  induction bs using List.reverseRecOn with
  | nil => exact ⟨[], rfl⟩
  | append_singleton bs b ih =>
    obtain ⟨ms, before⟩ := ih
    rw [absorb_append, absorb_cons, absorb_nil, absorbByte]
    split_ifs
    · refine ⟨ms ++ [bufPrefix (blockBytes (famOf s.var)) (putByte b (absorb bs s))], ?_⟩
      simp [compressBlocks, before]
    · exact ⟨ms, before⟩

/-- The initial vectors of the 32-bit family are loaded zero-extended (45_commands.md R183). -/
theorem ivRom_highHalvesZero {v : Variant} (fam : famOf v = .fam32) : HighHalvesZero (ivRom v) := by
  cases v with
  | sha224 => exact highHalvesZero_map_setWidth _
  | sha256 => exact highHalvesZero_map_setWidth _
  | sha384 => cases fam
  | sha512 => cases fam

/-- Settles O35: every clause is about the reset state's own values. -/
theorem resetMeetsTheInvariants : Obligations.ResetMeetsTheInvariants := by
  constructor <;> decide +kernel

section Invariants

variable {s : State}

/-- No clause reads what the host is still to give. -/
theorem Inv.withInputs (inv : Inv s) (rest : List Input) : Inv { s with inputs := rest } := { inv with }

/-- No clause reads LASTERR or STICKY. -/
theorem Inv.reject (inv : Inv s) (code : ErrCode) : Inv (reject code s) := { inv with }

/-- No digest is valid in an open session. -/
theorem Inv.dvalid_eq_false (inv : Inv s) (isOpen : s.Open) : s.dvalid = false :=
  Bool.eq_false_iff.2 fun valid => isOpen.ne_idle_and_ne_final.2 (inv.dvalid_iff.1 valid)

/-- INIT establishes the invariants from any state. -/
theorem inv_afterInit (v : Variant) (s : State) : Inv (afterInit v s) where
  bufcnt_lt _ := blockBytes_pos _
  bufcnt_zero _ := rfl
  len_whole_bytes := rfl
  len_fits := Nat.zero_le _
  len_bufcnt _ := by simp
  empty_zero _ := ⟨rfl, rfl⟩
  dvalid_iff := by simp
  dlen_valid valid := by cases valid
  digest_tail valid := by cases valid
  no_digest _ := ⟨rfl, fun i => Vector.getElem_replicate i.isLt⟩
  high_zero := ivRom_highHalvesZero

/-- An accepted UPDATE moves LEN and BUFCNT together and writes H by compressions alone. -/
theorem Inv.afterUpdate (inv : Inv s) (isOpen : s.Open) {n : BitVec 4} (din : BitVec 64)
    (fits : s.len.toNat + 8 * n.toNat ≤ maxLen (famOf s.var)) : Inv (afterUpdate n din s) := by
  have whole := inv.len_whole_bytes
  have length := afterUpdate_len_toNat din fits
  have count : (Machine.afterUpdate n din s).bufcnt.toNat =
      (s.bufcnt.toNat + n.toNat) % blockBytes (famOf s.var) := by
    rw [afterUpdate_bufcnt, absorb_bufcnt _ s inv.bufcnt_lt_blockBytes, dinBytes_length]
  have noDigest := inv.dvalid_eq_false isOpen
  constructor
  case bufcnt_lt =>
    intro _
    rw [count, afterUpdate_var]
    exact Nat.mod_lt _ (blockBytes_pos _)
  case bufcnt_zero => simp
  case len_whole_bytes => omega
  case len_fits => rwa [length, afterUpdate_var]
  case len_bufcnt =>
    intro _
    rw [count, afterUpdate_var, length, show (s.len.toNat + 8 * n.toNat) / 8 = s.len.toNat / 8 + n.toNat by omega,
      ← inv.len_bufcnt isOpen, Nat.mod_add_mod]
  case empty_zero => simp
  case dvalid_iff => simp [noDigest]
  case dlen_valid => simp [noDigest]
  case digest_tail => simp [noDigest]
  case no_digest =>
    rw [afterUpdate_dvalid, afterUpdate_dlen, afterUpdate_digest]
    exact inv.no_digest
  case high_zero =>
    intro fam
    rw [afterUpdate_var] at fam
    obtain ⟨ms, hash⟩ := exists_absorb_h_eq_compressBlocks (dinBytes n din) s
    rw [afterUpdate_h, hash, fam]
    exact compressBlocks_highHalvesZero (inv.high_zero fam) ms

/-- FINALIZE shows a digest of the variant's length with zeros after it, and empties the buffer. -/
theorem Inv.afterFinalize (inv : Inv s) : Inv (afterFinalize s) := by
  constructor
  case bufcnt_lt =>
    intro _
    exact blockBytes_pos _
  case bufcnt_zero => simp
  case len_whole_bytes =>
    rw [afterFinalize_len]
    exact inv.len_whole_bytes
  case len_fits =>
    rw [afterFinalize_len, afterFinalize_var]
    exact inv.len_fits
  case len_bufcnt => simp
  case empty_zero => simp
  case dvalid_iff => simp
  case dlen_valid =>
    intro _
    rw [afterFinalize_dlen_toNat, serialize_length, afterFinalize_var, digestBytes]
  case digest_tail =>
    intro _ i past
    rw [afterFinalize_dlen_toNat] at past
    rw [afterFinalize_digest_getElem, List.getD_eq_default _ _ past]
  case no_digest => simp
  case high_zero =>
    intro fam
    rw [afterFinalize_var] at fam
    rw [afterFinalize_h, fam]
    exact compressBlocks_highHalvesZero (inv.high_zero fam) _

/-- The reset state with any inputs to come. -/
theorem inv_resetBlock (s : State) : Inv (resetBlock s) := resetMeetsTheInvariants.withInputs s.inputs

end Invariants

/-- Settles O36: each effect of a step keeps every clause. -/
theorem everyStepKeepsTheInvariants : Obligations.EveryStepKeepsTheInvariants := by
  intro s t inv ran
  have taken := inv.withInputs
  cases step_effect ran with
  | idle unchanged => exact unchanged ▸ inv
  | init c rest v _ _ result => exact result ▸ inv_afterInit v _
  | update c rest n din _ _ isOpen fits result => exact result ▸ (taken rest).afterUpdate isOpen din fits
  | finalize c rest _ _ _ result => exact result ▸ (taken rest).afterFinalize
  | rejected rest code result => exact result ▸ (taken rest).reject code
  | reset rest _ result => exact result ▸ inv_resetBlock _

/-- Settles O34: clause (e) of the invariants, which the step keeps. -/
theorem noDigestIsShownUnlessValid : Obligations.NoDigestIsShownUnlessValid := by
  intro s t inv ran
  have kept := everyStepKeepsTheInvariants s t inv ran
  exact ⟨fun invalid => (kept.no_digest invalid).2, kept.dvalid_iff⟩

end Sys2Proof.Machine

/-! PROOFS. The hidden state (10_state.md R21, R23, R33): neither H outside a session nor BUF at and above BUFCNT
reaches a port or a later state the host can tell apart. -/

namespace Sys2Proof.Machine

section OneByte

variable (s : State) (b : Byte)

/-- BUFCNT after one byte is read from BUFCNT and VAR, in every state. -/
theorem absorbByte_bufcnt_eq : (absorbByte s b).bufcnt =
    if s.bufcnt.toNat + 1 = blockBytes (famOf s.var) then 0 else BitVec.ofNat 7 (s.bufcnt.toNat + 1) := by
  unfold absorbByte
  split_ifs <;> rfl

/-- H after one byte is read from H, VAR and the buffered bytes, in every state. -/
theorem absorbByte_h_eq : (absorbByte s b).h =
    if s.bufcnt.toNat + 1 = blockBytes (famOf s.var) then compressH (famOf s.var) s.h (remainder s ++ [b])
    else s.h := by
  by_cases full : s.bufcnt.toNat + 1 = blockBytes (famOf s.var)
  · rw [if_pos full]
    exact (absorbByte_completes b full).2.1
  · rw [if_neg full, absorbByte, if_neg full]
    rfl

/-- The buffered bytes after one byte are the old ones and it, or none where BUFCNT is back at 0; that is so outside
the invariants too, where BUFCNT wraps at 128. -/
theorem remainder_absorbByte :
    remainder (absorbByte s b) = if (absorbByte s b).bufcnt = 0 then [] else remainder s ++ [b] := by
  split_ifs with empty
  · exact remainder_eq_nil empty
  · rw [absorbByte_bufcnt_eq] at empty
    have notFull : ¬s.bufcnt.toNat + 1 = blockBytes (famOf s.var) := fun full => empty (if_pos full)
    rw [if_neg notFull] at empty
    have notWrapped : s.bufcnt.toNat + 1 ≠ 128 := fun wraps => empty (by rw [wraps]; rfl)
    have count : (absorbByte s b).bufcnt.toNat = s.bufcnt.toNat + 1 := by
      rw [absorbByte_bufcnt_eq, if_neg notFull, BitVec.toNat_ofNat]
      omega
    rw [← bufPrefix_putByte, remainder, count, bufPrefix, bufPrefix, absorbByte_buf, putByte_buf]

end OneByte

namespace SameToHost

variable {s t : State} (same : SameToHost s t)
include same

theorem status_eq : status s = status t := by
  simp only [status, same.dlen, same.dvalid, same.bufcnt, same.sticky, same.lasterr, same.var, same.sess]

theorem open_iff : s.Open ↔ t.Open := by rw [State.Open, State.Open, same.sess]

theorem updateError_eq (n : BitVec 4) : updateError n s = updateError n t := by
  have fits : lengthFits n.toNat s = lengthFits n.toNat t := by rw [lengthFits, lengthFits, same.len, same.var]
  rw [updateError, updateError, same.sess, fits]

protected theorem withInputs (rest : List Input) : SameToHost { s with inputs := rest } { t with inputs := rest } :=
  { same with inputs := rfl }

protected theorem reject (code : ErrCode) : SameToHost (reject code s) (reject code t) :=
  { same with lasterr := rfl, sticky := rfl }

/-- INIT overwrites H and empties the buffer. -/
protected theorem afterInit (v : Variant) : SameToHost (afterInit v s) (afterInit v t) :=
  { sess := rfl, var := rfl, bufcnt := rfl, len := rfl, digest := rfl, dlen := rfl, dvalid := rfl, lasterr := rfl,
    sticky := same.sticky, inputs := same.inputs, buffered := rfl, hash := fun _ => rfl }

protected theorem resetBlock : SameToHost (resetBlock s) (resetBlock t) := by
  rw [Machine.resetBlock, Machine.resetBlock, same.inputs]
  constructor <;> intros <;> rfl

protected theorem absorbByte (b : Byte) : SameToHost (absorbByte s b) (absorbByte t b) where
  sess := by simpa using same.sess
  var := by simpa using same.var
  bufcnt := by rw [absorbByte_bufcnt_eq, absorbByte_bufcnt_eq, same.bufcnt, same.var]
  len := by simpa using same.len
  digest := by simpa using same.digest
  dlen := by simpa using same.dlen
  dvalid := by simpa using same.dvalid
  lasterr := by simpa using same.lasterr
  sticky := by simpa using same.sticky
  inputs := by simpa using same.inputs
  buffered := by
    rw [remainder_absorbByte, remainder_absorbByte, absorbByte_bufcnt_eq, absorbByte_bufcnt_eq, same.bufcnt, same.var,
      same.buffered]
  hash isOpen := by
    rw [State.Open, absorbByte_sess] at isOpen
    rw [absorbByte_h_eq, absorbByte_h_eq, same.bufcnt, same.var, same.buffered, same.hash isOpen]

protected theorem absorb (bs : List Byte) : SameToHost (absorb bs s) (absorb bs t) := by
  induction bs generalizing s t with
  | nil => exact same
  | cons b bs ih => exact ih (same.absorbByte b)

/-- In an open session UPDATE reads only what the host can tell apart. -/
protected theorem afterUpdate (n : BitVec 4) (din : BitVec 64) (isOpen : s.Open) :
    SameToHost (afterUpdate n din s) (afterUpdate n din t) :=
  have loop := same.absorb (dinBytes n din)
  { loop with
    sess := rfl
    lasterr := rfl
    len := by rw [afterUpdate_len, afterUpdate_len, same.len]
    hash := fun _ => loop.hash (by rwa [State.Open, absorb_sess]) }

/-- FINALIZE of an open session reads H and the buffered bytes, and closes the session. -/
protected theorem afterFinalize (isOpen : s.Open) : SameToHost (afterFinalize s) (afterFinalize t) := by
  have hash : (Machine.afterFinalize s).h = (Machine.afterFinalize t).h := by
    rw [afterFinalize_h, afterFinalize_h, same.var, same.hash isOpen, same.buffered, same.len]
  constructor
  case sess => rfl
  case var => rw [afterFinalize_var, afterFinalize_var, same.var]
  case bufcnt => rfl
  case len => rw [afterFinalize_len, afterFinalize_len, same.len]
  case digest =>
    refine Vector.ext fun i hi => ?_
    have shown := afterFinalize_digest_getElem
    exact (shown s ⟨i, hi⟩).trans (by rw [hash, same.var]; exact (shown t ⟨i, hi⟩).symm)
  case dlen => rw [afterFinalize_dlen, afterFinalize_dlen, hash, same.var]
  case dvalid => rw [afterFinalize_dvalid, afterFinalize_dvalid]
  case lasterr => rfl
  case sticky => rw [afterFinalize_sticky, afterFinalize_sticky, same.sticky]
  case inputs => rw [afterFinalize_inputs, afterFinalize_inputs, same.inputs]
  case buffered => rw [remainder_eq_nil (afterFinalize_bufcnt s), remainder_eq_nil (afterFinalize_bufcnt t)]
  case hash => exact fun _ => hash

/-- Every command passes or fails its checks alike on the two states, and keeps them alike. -/
theorem exec_eq_next {i : Instr} {s' : State} (ran : exec i s = .next s') :
    ∃ t', exec i t = .next t' ∧ SameToHost s' t' := by
  obtain ⟨v, rfl, init⟩ | ⟨n, din, rfl, passed, rfl⟩ | ⟨rfl, passed, rfl⟩ | ⟨n, din, code, rfl, failed, rfl⟩ |
    ⟨code, rfl, failed, rfl⟩ := exec_cases ran
  · exact ⟨_, exec_init v t, Host.Outcome.next.inj init ▸ same.afterInit v⟩
  · have isOpen : s.Open := ((updateError_eq_none_iff n s).1 passed).2.1
    exact ⟨_, exec_update_accepted (same.updateError_eq n ▸ passed), same.afterUpdate n din isOpen⟩
  · have isOpen : s.Open := (sessionError_eq_none_iff s.sess).1 passed
    exact ⟨_, exec_finalize_of_open (same.open_iff.1 isOpen), same.afterFinalize isOpen⟩
  · exact ⟨_, exec_update_rejected (same.updateError_eq n ▸ failed), same.reject code⟩
  · exact ⟨_, exec_finalize_rejected (same.sess ▸ failed), same.reject code⟩

end SameToHost

/-- Settles O37: the ports read no hidden part, and every input acts alike on the two states. -/
theorem hiddenStateIsNeverObserved : Obligations.HiddenStateIsNeverObserved := by
  refine ⟨fun s t same => ⟨same.status_eq, same.len, fun i => ?ports⟩, fun s t s' same ran => ?_⟩
  case ports => rw [dout, dout, same.digest]
  obtain ⟨noInput, rfl⟩ | ⟨c, rest, i, presented, decoded, ran⟩ | ⟨c, rest, why, presented, decoded, rfl⟩ |
    ⟨rest, asserted, rfl⟩ := step_cases ran
  · exact ⟨t, step_of_no_input (same.inputs ▸ noInput), same⟩
  · rw [step_of_decode_instr (same.inputs ▸ presented) decoded]
    exact (same.withInputs rest).exec_eq_next ran
  · exact ⟨_, step_of_decode_illegal (same.inputs ▸ presented) decoded, (same.withInputs rest).reject .illegal⟩
  · exact ⟨_, step_of_reset (same.inputs ▸ asserted), (same.withInputs rest).resetBlock⟩

end Sys2Proof.Machine

/-! PROOFS. Sessions and messages: the blocks of a session are the padded message (41_padding.md R106), INIT, UPDATE and
FINALIZE on the message a session has accepted (45_commands.md R183, R186, R189), and the one-shot hash (R193). -/

namespace Sys2Proof.Machine

section SessionBlocks

/-- Blocks of b bytes each, joined and cut again. -/
theorem chunks_flatten_of_uniform {b : Nat} {blocks : List (List Byte)} (uniform : ∀ m ∈ blocks, m.length = b) :
    chunks b blocks.length blocks.flatten = blocks := by
  induction blocks with
  | nil => rfl
  | cons m ms ih =>
    obtain ⟨hm, hms⟩ := List.forall_mem_cons.1 uniform
    rw [List.length_cons, List.flatten_cons, chunks, List.take_left' hm, List.drop_left' hm, ih hms]

theorem length_flatten_of_uniform {b : Nat} {blocks : List (List Byte)} (uniform : ∀ m ∈ blocks, m.length = b) :
    blocks.flatten.length = blocks.length * b := by
  rw [List.length_flatten, List.map_congr_left uniform, List.map_const', List.sum_replicate_nat]

/-- The number below B that completes x to a multiple of B. -/
theorem sub_mod_mod_eq {b x z : Nat} (bound : z < b) (whole : (x + z) % b = 0) : (b - x % b) % b = z := by
  have small : x % b < b := Nat.mod_lt _ (by omega)
  have same : b - x % b ≡ z [MOD b] := Nat.ModEq.add_right_cancel' (x % b) <| by
    rw [Nat.ModEq, Nat.sub_add_cancel small.le, Nat.mod_self, Nat.add_comm, Nat.mod_add_mod, whole]
  rw [same, Nat.mod_eq_of_lt bound]

/-- The zeros of the padded message are those of its remainder: whole blocks before it do not count (R101, R106). -/
theorem zeros_eq_padZeros (fam : Fam) (length : Nat) :
    (blockBytes fam - (length + 1 + lengthBytes fam) % blockBytes fam) % blockBytes fam =
      padZeros fam (length % blockBytes fam) := by
  have short := Nat.mod_lt length (blockBytes_pos fam)
  have fills := add_padZeros_add_lengthBytes short
  have parts := Nat.div_add_mod' length (blockBytes fam)
  have whole : length + 1 + lengthBytes fam + padZeros fam (length % blockBytes fam) =
      (length / blockBytes fam + padBlockCount fam (length % blockBytes fam)) * blockBytes fam := by
    rw [Nat.add_mul]
    omega
  exact sub_mod_mod_eq (padZeros_lt_blockBytes short) (by rw [whole, Nat.mul_mod_left])

variable (fam : Fam) (m : List Byte)

/-- The blocks of one session of the message: its full blocks, then those FINALIZE makes of the bytes left. -/
abbrev sessionBlocks : List (List Byte) :=
  chunks (blockBytes fam) (m.length / blockBytes fam) m ++
    pad fam (m.drop (m.length / blockBytes fam * blockBytes fam)) (8 * m.length)

theorem length_drop_full_blocks :
    (m.drop (m.length / blockBytes fam * blockBytes fam)).length = m.length % blockBytes fam := by
  have parts := Nat.div_add_mod' m.length (blockBytes fam)
  rw [List.length_drop]
  omega

theorem length_drop_full_blocks_lt :
    (m.drop (m.length / blockBytes fam * blockBytes fam)).length < blockBytes fam := by
  rw [length_drop_full_blocks]
  exact Nat.mod_lt _ (blockBytes_pos fam)

theorem sessionBlocks_block_length : ∀ b ∈ sessionBlocks fam m, b.length = blockBytes fam := by
  intro b hb
  obtain full | padded := List.mem_append.1 hb
  · exact chunks_block_length _ _ _ (Nat.div_mul_le_self _ _) b full
  · exact pad_block_length (length_drop_full_blocks_lt fam m) _ b padded

/-- The blocks of a session joined are the padded message (R106). -/
theorem paddedMessage_eq_flatten : paddedMessage fam m = (sessionBlocks fam m).flatten := by
  rw [List.flatten_append, chunks_flatten, pad_flatten (length_drop_full_blocks_lt fam m), padBytes_eq_append,
    length_drop_full_blocks, ← zeros_eq_padZeros]
  simp only [← List.append_assoc, List.take_append_drop]
  rfl

theorem paddedMessage_length :
    (paddedMessage fam m).length = (sessionBlocks fam m).length * blockBytes fam := by
  rw [paddedMessage_eq_flatten, length_flatten_of_uniform (sessionBlocks_block_length fam m)]

/-- The padded message cut into blocks is the blocks of the session. -/
theorem chunks_paddedMessage :
    chunks (blockBytes fam) ((paddedMessage fam m).length / blockBytes fam) (paddedMessage fam m) =
      sessionBlocks fam m := by
  rw [paddedMessage_length, Nat.mul_div_cancel _ (blockBytes_pos fam), paddedMessage_eq_flatten]
  exact chunks_flatten_of_uniform (sessionBlocks_block_length fam m)

end SessionBlocks

/-- Settles O49: the blocks of a session have B bytes each and joined are the padded message, so cutting it gives them
back. -/
theorem sessionBlocksAreThePaddedMessage : Obligations.SessionBlocksAreThePaddedMessage :=
  fun fam m => ⟨paddedMessage_eq_flatten fam m, by rw [paddedMessage_length]; exact Nat.mul_mod_left _ _,
    chunks_paddedMessage fam m⟩

theorem compressBlocks_append (fam : Fam) (h : Vector (BitVec 64) 8) (ms ms' : List (List Byte)) :
    compressBlocks fam h (ms ++ ms') = compressBlocks fam (compressBlocks fam h ms) ms' :=
  List.foldl_append

section Absorbed

/-- BUFCNT, the buffered bytes and H are those of the message `m` of variant `v`: the part of `Accepted` that the byte
loop moves. -/
structure Absorbed (v : Variant) (m : List Byte) (s : State) : Prop where
  variant : s.var = v
  count : s.bufcnt.toNat = m.length % blockBytes (famOf v)
  buffered : remainder s = m.drop (m.length / blockBytes (famOf v) * blockBytes (famOf v))
  hash : s.h = compressBlocks (famOf v) (ivRom v) (chunks (blockBytes (famOf v)) (m.length / blockBytes (famOf v)) m)

variable {v : Variant} {m : List Byte} {s : State}

/-- One byte more: it is buffered, or completes the next full block of the message. -/
theorem Absorbed.absorbByte (absorbed : Absorbed v m s) (b : Byte) : Absorbed v (m ++ [b]) (absorbByte s b) := by
  obtain ⟨rfl, count, buffered, hash⟩ := absorbed
  have parts := Nat.div_add_mod' m.length (blockBytes (famOf s.var))
  have below := Nat.mod_lt m.length (blockBytes_pos (famOf s.var))
  have longer : (m ++ [b]).length = m.length + 1 := List.length_append
  have prefixed : (m ++ [b]).drop (m.length / blockBytes (famOf s.var) * blockBytes (famOf s.var)) =
      remainder s ++ [b] := by
    rw [List.drop_append_of_le_length (Nat.div_mul_le_self _ _), buffered]
  have blocks := chunks_append_of_le (blockBytes (famOf s.var)) (m.length / blockBytes (famOf s.var)) m [b]
    (Nat.div_mul_le_self _ _)
  by_cases full : s.bufcnt.toNat + 1 = blockBytes (famOf s.var)
  · obtain ⟨buffered', hash', count'⟩ := absorbByte_completes b full
    have total : m.length + 1 = (m.length / blockBytes (famOf s.var) + 1) * blockBytes (famOf s.var) := by
      rw [Nat.succ_mul]
      omega
    have quotient : (m ++ [b]).length / blockBytes (famOf s.var) = m.length / blockBytes (famOf s.var) + 1 := by
      rw [longer, total, Nat.mul_div_cancel _ (blockBytes_pos _)]
    have size : (remainder s ++ [b]).length = blockBytes (famOf s.var) := by
      rw [buffered, List.length_append, length_drop_full_blocks, List.length_singleton, ← count, full]
    refine ⟨absorbByte_var s b, ?_, ?_, ?_⟩
    · rw [count', longer, total, Nat.mul_mod_left]
      rfl
    · rw [buffered', quotient, ← total, ← longer, List.drop_length]
    · rw [hash', quotient, chunks_add, blocks, compressBlocks_append, ← hash, prefixed, chunks, chunks,
        List.take_of_length_le size.le]
      rfl
  · obtain ⟨buffered', hash', count'⟩ := absorbByte_within b (s := s) (by omega)
    have place : m.length % blockBytes (famOf s.var) + 1 < blockBytes (famOf s.var) := by omega
    have quotient : (m ++ [b]).length / blockBytes (famOf s.var) = m.length / blockBytes (famOf s.var) := by
      rw [longer, Nat.div_eq_iff (blockBytes_pos _)]
      omega
    refine ⟨absorbByte_var s b, ?_, ?_, ?_⟩
    · rw [count', count, longer, ← Nat.mod_add_mod, Nat.mod_eq_of_lt place]
    · rw [buffered', quotient, prefixed]
    · rw [hash', quotient, blocks, hash]

theorem Absorbed.absorb (absorbed : Absorbed v m s) (bs : List Byte) : Absorbed v (m ++ bs) (absorb bs s) := by
  induction bs generalizing m s with
  | nil => rwa [List.append_nil]
  | cons b bs ih =>
    rw [List.append_cons, absorb_cons]
    exact ih (absorbed.absorbByte b)

end Absorbed

section AcceptedMessages

variable {v : Variant} {m : List Byte} {s : State}

theorem accepted_afterInit (v : Variant) (s : State) : Accepted v [] (afterInit v s) where
  isOpen := .inl rfl
  variant := rfl
  length := rfl
  count := by simp
  buffered := by rw [remainder_eq_nil (afterInit_bufcnt v s), List.drop_nil]
  hash := by simp [chunks, compressBlocks]

theorem Accepted.absorbed (accepted : Accepted v m s) : Absorbed v m s := { accepted with }

/-- An UPDATE that the length field can count appends its bytes to the message (R185, R186). -/
theorem Accepted.exec_update (accepted : Accepted v m s) {n : BitVec 4} (din : BitVec 64) (short : n.toNat ≤ 8)
    (fits : 8 * (m.length + n.toNat) ≤ maxLen (famOf v)) :
    exec (.update n din) s = .next (afterUpdate n din s) ∧ Accepted v (m ++ dinBytes n din) (afterUpdate n din s) := by
  have fits : s.len.toNat + 8 * n.toNat ≤ maxLen (famOf s.var) := by
    rw [accepted.length, accepted.variant]
    omega
  obtain ⟨variant, count, buffered, hash⟩ := accepted.absorbed.absorb (dinBytes n din)
  refine ⟨exec_update_of_fits din accepted.isOpen short fits, .inr rfl, variant, ?length, count, buffered, hash⟩
  case length =>
    rw [afterUpdate_len_toNat din fits, accepted.length, List.length_append, dinBytes_length, Nat.mul_add]

/-- FINALIZE compresses the blocks of pad after the full blocks of the message: all of the padded message (R189). -/
theorem Accepted.serialize_afterFinalize (accepted : Accepted v m s) :
    serialize v (afterFinalize s).h = sha2 v m := by
  obtain ⟨-, rfl, length, -, buffered, hash⟩ := accepted
  rw [sha2, chunks_paddedMessage, compressBlocks_append, ← hash, ← buffered, ← length, afterFinalize_h]

/-- FINALIZE of a session shows the digest of its message. -/
theorem Accepted.afterFinalize_shows (accepted : Accepted v m s) :
    (afterFinalize s).dlen.toNat = (sha2 v m).length ∧
      ∀ i : Fin 64, dout (afterFinalize s) i = (sha2 v m).getD i.val 0x00 := by
  have digest := accepted.serialize_afterFinalize
  rw [← accepted.variant] at digest ⊢
  exact ⟨by rw [afterFinalize_dlen_toNat, digest], fun i => by rw [dout, afterFinalize_digest_getElem, digest]⟩

end AcceptedMessages

/-- Settles O38: INIT from any state. -/
theorem initAcceptsTheEmptyMessage : Obligations.InitAcceptsTheEmptyMessage :=
  fun v s => ⟨_, exec_init v s, accepted_afterInit v s⟩

/-- Settles O39: the byte loop moves BUFCNT, BUF and H to those of the longer message, byte by byte. -/
theorem updateAppendsItsBytesToTheMessage : Obligations.UpdateAppendsItsBytesToTheMessage :=
  fun _ _ _ _ din accepted short fits => ⟨_, accepted.exec_update din short fits⟩

/-- Settles O40: the blocks compressed in the session and by FINALIZE are the padded message's. -/
theorem finalizeShowsTheDigestOfTheMessage : Obligations.FinalizeShowsTheDigestOfTheMessage :=
  fun _ _ _ accepted => ⟨_, exec_finalize_of_open accepted.isOpen, accepted.afterFinalize_shows⟩

end Sys2Proof.Machine

/-! PROOFS. The one-shot hash (45_commands.md R193): the assembler's ABSORB and HASH (30_encoding.md R69), presented by
the host and run. -/

namespace Sys2Proof.Machine

section Run

variable {M : Host.Core} {s t : M.State}

theorem run_succ (ran : M.step s = .next t) (k : Nat) : M.run (k + 1) s = M.run k t := by
  rw [Host.Core.run, ran]

/-- A run of j + k steps that gets through the first j continues from where they end. -/
theorem run_add {j : Nat} (ran : M.run j s = .next t) (k : Nat) : M.run (j + k) s = M.run k t := by
  induction j generalizing s with
  | zero => rw [Nat.zero_add, Host.Outcome.next.inj ran]
  | succ j ih =>
    rw [Host.Core.run] at ran
    rw [Nat.add_right_comm, Host.Core.run]
    cases stepped : M.step s with
    | next u =>
      rw [stepped] at ran
      exact ih ran
    | fault r => rw [stepped] at ran; cases ran
    | refused r => rw [stepped] at ran; cases ran

end Run

/-- A well-formed command that the host presents as the assembler encodes it is what the step runs (R68). -/
theorem step_of_present {s : State} {i : Instr} {program : List Instr} {rest : List Input} (wellFormed : i.WellFormed)
    (presented : s.inputs = present (i :: program) ++ rest) :
    step s = exec i { s with inputs := present program ++ rest } :=
  step_of_decode_instr presented (decodeInvertsEncode i wellFormed)

theorem present_append (program program' : List Instr) :
    present (program ++ program') = present program ++ present program' :=
  List.map_append

/-- `UPDATE r, D` carries the r bytes it was made of (R69). -/
theorem dinBytes_updateOf {bytes : List Byte} (short : bytes.length ≤ 8) :
    dinBytes (BitVec.ofNat 4 bytes.length)
      (wordOfBytes 64 (bytes ++ List.replicate (8 - bytes.length) 0)) = bytes := by
  have count : (BitVec.ofNat 4 bytes.length).toNat = bytes.length := by
    rw [BitVec.toNat_ofNat]
    omega
  have eight : (bytes ++ List.replicate (8 - bytes.length) 0).length = 8 := by
    rw [List.length_append, List.length_replicate]
    omega
  refine List.ext_getElem? fun j => ?_
  rw [dinBytes_getElem?, count]
  split_ifs with hj
  · rw [dinLane, show 56 - 8 * j = 64 - 8 * (j + 1) by omega,
      wordOfBytes_extractLsb' (by rw [eight]) (by omega), List.getElem_append_left hj, List.getElem?_eq_getElem hj]
  · rw [List.getElem?_eq_none (by omega)]

namespace Accepted

variable {v : Variant} {m bytes : List Byte} {s : State} {rest : List Input}

/-- A session does not read what the host is still to give. -/
theorem withInputs (accepted : Accepted v m s) (rest : List Input) : Accepted v m { s with inputs := rest } :=
  { accepted with }

/-- One presented `UPDATE r, D` appends its bytes. -/
theorem step_updateOf (accepted : Accepted v m s) {program : List Instr}
    (presented : s.inputs = present (updateOf bytes :: program) ++ rest) (short : bytes.length ≤ 8)
    (fits : 8 * (m.length + bytes.length) ≤ maxLen (famOf v)) :
    ∃ t, step s = .next t ∧ Accepted v (m ++ bytes) t ∧ t.inputs = present program ++ rest := by
  have carried := dinBytes_updateOf short
  have count : (BitVec.ofNat 4 bytes.length).toNat = bytes.length := by rw [← dinBytes_length, carried]
  obtain ⟨ran, appended⟩ := (accepted.withInputs (present program ++ rest)).exec_update
    (wordOfBytes 64 (bytes ++ List.replicate (8 - bytes.length) 0)) (count.trans_le short) (by rwa [count])
  rw [carried] at appended
  exact ⟨_, (step_of_present (count.trans_le short) presented).trans ran, appended, afterUpdate_inputs _ _ _⟩

/-- ABSORB appends its bytes, in `UPDATE 8`s and one shorter UPDATE for what is left (R69). -/
theorem run_absorbCommands (k : Nat) (accepted : Accepted v m s)
    (presented : s.inputs = present (absorbCommands k bytes) ++ rest) (enough : bytes.length ≤ 8 * (k + 1))
    (fits : 8 * (m.length + bytes.length) ≤ maxLen (famOf v)) :
    ∃ t, core.run (absorbCommands k bytes).length s = .next t ∧ Accepted v (m ++ bytes) t ∧ t.inputs = rest := by
  induction k generalizing m bytes s with
  | zero =>
    rw [absorbCommands] at presented ⊢
    split_ifs at presented ⊢ with empty
    · exact ⟨s, rfl, by rwa [empty, List.append_nil], presented⟩
    · obtain ⟨t, ran, appended, inputs⟩ := accepted.step_updateOf presented enough fits
      exact ⟨t, run_succ ran 0, appended, inputs⟩
  | succ k ih =>
    have parts : (bytes.take 8).length + (bytes.drop 8).length = bytes.length := by
      rw [← List.length_append, List.take_append_drop]
    have short : (bytes.take 8).length ≤ 8 := List.length_take_le _ _
    have left : (bytes.drop 8).length ≤ 8 * (k + 1) := by
      rw [List.length_drop]
      omega
    obtain ⟨t, ran, appended, inputs⟩ := accepted.step_updateOf presented short (by omega)
    obtain ⟨u, ran', appended', inputs'⟩ := ih appended inputs left (by rw [List.length_append]; omega)
    rw [List.append_assoc, List.take_append_drop] at appended'
    exact ⟨u, (run_succ ran _).trans ran', appended', inputs'⟩

end Accepted

/-- A presented HASH runs to the FINALIZE of a session that has accepted the message (R69, R193). -/
theorem run_hashProgram {v : Variant} {m : List Byte} {s : State} {rest : List Input}
    (presented : s.inputs = present (hashProgram v m) ++ rest) (fits : 8 * m.length ≤ maxLen (famOf v)) :
    ∃ t, core.run (hashProgram v m).length s = .next (afterFinalize t) ∧ Accepted v m t ∧ t.inputs = rest := by
  have init := (step_of_present trivial presented).trans (exec_init v _)
  have opened := accepted_afterInit v { s with inputs := present (absorbProgram m ++ [.finalize]) ++ rest }
  obtain ⟨t, absorbed, accepted, inputs⟩ := opened.run_absorbCommands (bytes := m) (rest := present [.finalize] ++ rest)
    (m.length / 8) (by rw [afterInit_inputs, present_append, List.append_assoc]; rfl) (by omega)
    (by rwa [List.length_nil, Nat.zero_add])
  have final := (step_of_present trivial inputs).trans (exec_finalize_of_open accepted.isOpen)
  refine ⟨{ t with inputs := rest }, ?_, accepted.withInputs rest, rfl⟩
  calc core.run (hashProgram v m).length s
    _ = core.run (absorbProgram m ++ [Instr.finalize]).length _ := run_succ (M := core) init _
    _ = core.run 1 t := by
      rw [List.length_append]
      exact run_add absorbed 1
    _ = .next (afterFinalize { t with inputs := rest }) := run_succ (M := core) final 0

/-- Settles O42: INIT opens a session of the empty message, ABSORB makes it that of `m`, FINALIZE shows the digest. -/
theorem oneShotHashGivesTheSha2Digest : Obligations.OneShotHashGivesTheSha2Digest := by
  intro v m s rest fits
  obtain ⟨t, ran, accepted, inputs⟩ :=
    run_hashProgram (s := { s with inputs := present (hashProgram v m) ++ rest }) rfl fits
  obtain ⟨length, digest⟩ := accepted.afterFinalize_shows
  exact ⟨afterFinalize t, ran, afterFinalize_sess t, (afterFinalize_inputs t).trans inputs, length, digest⟩

end Sys2Proof.Machine
